-- ==== Sys2Proof/Word.lean ====
section
/-! DEFINITION. The two fixed-width words of the engine: the command word (30_encoding.md R57) and the slot index
field (R57, 10_state.md R29). The packed register has the width W of the configuration and is `BitVec c.w`. -/

namespace Sys2Proof

/-- A command word as a requester presents it on a port: 16 bits (R57). -/
abbrev CmdWord := BitVec 16

/-- A slot index as a command word carries it and as `OPA`, `OPB` hold it: 6 bits, unsigned (R57, R29, R55). -/
abbrev SlotIx := BitVec 6

end Sys2Proof
end

