-- ==== Sys2Proof/Machine/Float.lean ====
section
/-! DEFINITION. The open parameter FLOAT_FMT (00_scope.md R9, 42_ratio_query.md R112): every format the spec admits, as
plain data; `round_FMT` in it (R112, R113), the reading of a bit pattern back as a rational, and which formats are legal for
slots of a given width. -/

namespace Sys2Proof

/-! ### The formats -/

/-- The rounding attribute of a binary format (R112 leaves it to FLOAT_FMT; the default is `nearestEven`, R113). -/
inductive Rounding where
  | nearestEven
  | nearestAway
  | towardZero
  | down
  | up
deriving DecidableEq, Repr

/-- A binary interchange layout: one sign bit, `expBits` biased exponent bits, `fracBits` fraction bits, with subnormal
numbers, and a rounding attribute (log entry 8). -/
structure BinaryFmt where
  expBits  : Nat
  fracBits : Nat
  rounding : Rounding
deriving DecidableEq, Repr

/-- One step of a listed format: the rationals from `lo` up to the next step are rounded to the pattern `bits`, which
stands for `value`. -/
structure RoundStep where
  lo    : Rat
  value : Rat
  bits  : Nat
deriving DecidableEq, Repr

/-- A format of any other kind (decimal, fixed point, without subnormal numbers, ...), given by its rounding as a step
function: the pattern of `+0`, and the steps from the lowest to the highest (log entry 8). -/
structure ListedFmt where
  width : Nat
  zero  : Nat
  first : RoundStep
  rest  : List RoundStep
deriving DecidableEq, Repr

/-- A value of the parameter FLOAT_FMT: "any format meeting 42_ratio_query.md rule R112 (a) to (c)" (92_eei_decisions.md,
open parameters). Which of these values meet it is `FloatFmt.covers`. -/
inductive FloatFmt where
  | binary (b : BinaryFmt)
  | listed (l : ListedFmt)
deriving DecidableEq, Repr

/-- IEEE 754 binary64, round to nearest, ties to even (R113). -/
def BinaryFmt.binary64 : BinaryFmt := { expBits := 11, fracBits := 52, rounding := .nearestEven }

/-- The spec's default FLOAT_FMT (R9, R112). -/
def FloatFmt.binary64 : FloatFmt := .binary .binary64

/-- IEEE 754 binary32 with round to nearest, ties to even: the other format 92_eei_decisions.md D11 names. -/
def FloatFmt.binary32 : FloatFmt := .binary { expBits := 8, fracBits := 23, rounding := .nearestEven }

/-- Width of a binary layout. -/
def BinaryFmt.width (b : BinaryFmt) : Nat := 1 + b.expBits + b.fracBits

/-- Width of the `data` field of a response in this format (R62). -/
def FloatFmt.width : FloatFmt → Nat
  | .binary b => b.width
  | .listed l => l.width

/-- Exponent bias of a binary layout; 1023 for binary64 (R113). -/
def BinaryFmt.bias (b : BinaryFmt) : Nat := 2 ^ (b.expBits - 1) - 1

/-- The exponent of the smallest normal numbers, and of the subnormal ones. -/
def BinaryFmt.minExp (b : BinaryFmt) : Int := 1 - b.bias

/-- The first pattern that is not finite: exponent field all ones, fraction zero, sign zero. -/
def BinaryFmt.infinity (b : BinaryFmt) : Nat := (2 ^ b.expBits - 1) * 2 ^ b.fracBits

/-- The steps of a listed format, lowest first. -/
def ListedFmt.steps (l : ListedFmt) : List RoundStep := l.first :: l.rest

end Sys2Proof

namespace Sys2Proof.Machine

/-! ### Rounding -/

/-- The integer `e` with `2^e ≤ x/y < 2^(e+1)`, for positive `x` and `y` (R113). -/
def binExp (x y : Nat) : Int :=
  let e0 : Int := (x.log2 : Int) - (y.log2 : Int)
  if y * 2 ^ e0.toNat ≤ x * 2 ^ (-e0).toNat then e0 else e0 - 1

/-- The positive rational `x/y` rounded to an integer: nearest with ties to even in the default format (R113). -/
def roundFrac (r : Rounding) (x y : Nat) : Nat :=
  match r with
  | .nearestEven => if y < 2 * (x % y) ∨ (y = 2 * (x % y) ∧ (x / y) % 2 = 1) then x / y + 1 else x / y
  | .nearestAway => if y ≤ 2 * (x % y) then x / y + 1 else x / y
  | .towardZero => x / y
  | .down => x / y
  | .up => if x % y = 0 then x / y else x / y + 1

/-- The pattern of the positive number `m × 2^(e − fracBits)` with `m < 2^(fracBits+1)`: biased exponent and fraction
without the leading one (R113), exponent field zero when there is no leading one. -/
def packBinary (b : BinaryFmt) (e : Int) (m : Nat) : Nat :=
  if m < 2 ^ b.fracBits then m else (e + b.bias).toNat * 2 ^ b.fracBits + (m - 2 ^ b.fracBits)

/-- What a pattern past the largest finite number becomes: that number when rounding goes toward zero, else infinity. -/
def clampBinary (b : BinaryFmt) (bits : Nat) : Nat :=
  if bits < b.infinity then bits
  else match b.rounding with
    | .nearestEven => b.infinity
    | .nearestAway => b.infinity
    | .towardZero => b.infinity - 1
    | .down => b.infinity - 1
    | .up => b.infinity

/-- The pattern of the positive rational `x/y` in a binary format (R113): the significand `q × 2^(fracBits − e)` rounded to
an integer, a carry out of it moved into the exponent, the fields packed; below the normal numbers `e` stays at `minExp`. -/
def roundBinary (b : BinaryFmt) (x y : Nat) : Nat :=
  let e := max (binExp x y) b.minExp
  let sh : Int := b.fracBits - e
  let m := roundFrac b.rounding (x * 2 ^ sh.toNat) (y * 2 ^ (-sh).toNat)
  clampBinary b (if m = 2 ^ (b.fracBits + 1) then packBinary b (e + 1) (2 ^ b.fracBits) else packBinary b e m)

/-- The step `q` falls on: the last one reached going up while `lo ≤ q`, at least the current one. -/
def climb (q : Rat) : RoundStep → List RoundStep → RoundStep
  | t, [] => t
  | t, u :: us => if u.lo ≤ q then climb q u us else t

/-- The step of a listed format a positive rational falls on. -/
def pickListed (l : ListedFmt) (q : Rat) : RoundStep := climb q l.first l.rest

/-- The pattern of `round_FMT(q)` as a number: that of `+0` for zero (R112 (a)). -/
def roundBits (f : FloatFmt) (q : Rat) : Nat :=
  match f with
  | .binary b => if q.num ≤ 0 then 0 else roundBinary b q.num.toNat q.den
  | .listed l => if q.num ≤ 0 then l.zero else (pickListed l q).bits

/-- `round_FMT(q)` (R112, R113). -/
def roundFmt (f : FloatFmt) (q : Rat) : BitVec f.width := BitVec.ofNat f.width (roundBits f q)

/-- `+0` of the format (R111, R112 (a)). -/
def plusZero (f : FloatFmt) : BitVec f.width := roundFmt f 0

/-! ### Reading a pattern back -/

/-- The sign bit of a pattern (bit 63 in binary64, R113). -/
def signBit (b : BinaryFmt) (d : BitVec b.width) : Bool := d.getLsbD (b.expBits + b.fracBits)

/-- The biased exponent of a pattern (bits 62:52 in binary64, R113). -/
def expField (b : BinaryFmt) (d : BitVec b.width) : Nat := (d.extractLsb' b.fracBits b.expBits).toNat

/-- The fraction of a pattern (bits 51:0 in binary64, R113). -/
def fracField (b : BinaryFmt) (d : BitVec b.width) : Nat := (d.extractLsb' 0 b.fracBits).toNat

/-- The rational a binary pattern of sign 0 stands for: with the hidden leading one when the exponent field is not zero. -/
def readBinary (b : BinaryFmt) (bits : Nat) : Rat :=
  let e := bits / 2 ^ b.fracBits
  let m := bits % 2 ^ b.fracBits
  if e = 0 then (m : Rat) * 2 ^ (b.minExp - b.fracBits)
  else ((2 ^ b.fracBits + m : Nat) : Rat) * 2 ^ ((e : Int) - b.bias - b.fracBits)

/-- The rational a pattern of a listed format stands for, zero when no step has it. -/
def readListed (l : ListedFmt) (bits : Nat) : Rat :=
  match l.steps.find? (fun t => decide (t.bits = bits)) with
  | some t => t.value
  | none => 0

/-- The rational a positive finite pattern stands for; zero for `+0`. -/
def floatValue (f : FloatFmt) (d : BitVec f.width) : Rat :=
  match f with
  | .binary b => readBinary b d.toNat
  | .listed l => readListed l d.toNat

/-- Is the pattern a finite positive number: in a binary format above `+0` and below infinity, so sign 0; in a listed one,
that of a step? -/
def isPositiveFinite (f : FloatFmt) (d : BitVec f.width) : Bool :=
  match f with
  | .binary b => decide (0 < d.toNat) && decide (d.toNat < b.infinity)
  | .listed l => l.steps.any (fun t => decide (t.bits = d.toNat))

/-! ### Legal formats -/

/-- What R112 asks of a listed format: patterns of its width, none that of `+0`, each standing for one positive value;
values rising with the steps (b); a value rounded to itself (c). -/
def listedMeetsDuties (l : ListedFmt) : Bool :=
  decide (l.zero < 2 ^ l.width) &&
  l.steps.all (fun t => decide (t.bits < 2 ^ l.width) && decide (t.bits ≠ l.zero) && decide (0 < t.value) &&
    decide ((pickListed l t.value).value = t.value) &&
    l.steps.all (fun u => decide (t.bits = u.bits → t.value = u.value))) &&
  decide (l.steps.Pairwise (fun t u => t.value ≤ u.value))

end Sys2Proof.Machine

namespace Sys2Proof

/-- Is the format legal for slots of width `s`: does it meet R112 (a) to (c) over the rationals the engine can produce, 0 and
`[1/VMAX, VMAX]` (R113, R114)? A binary layout meets (a) and (c) and keeps the order by its definition, so (b) is left, that
both ends are positive and finite (log entry 8). -/
def FloatFmt.covers (f : FloatFmt) (s : Nat) : Bool :=
  match f with
  | .binary _ =>
    Machine.isPositiveFinite f (Machine.roundFmt f (mkRat 1 (2 ^ (s - 1) - 1))) &&
    Machine.isPositiveFinite f (Machine.roundFmt f ((2 ^ (s - 1) - 1 : Nat) : Rat))
  | .listed l => Machine.listedMeetsDuties l

end Sys2Proof
end

