-- ==== Sys2Proof/Config.lean ====
section
/-! DEFINITION. What is fixed for one engine instance: the parameters N, S, W of the source (00_scope.md R6, R7), the
parameters P and FLOAT_FMT the spec adds (R9), the two shipped instances (R2, R8), and the two free values of the model: the
open arbitration (92_eei_decisions.md D14) and the words a requester is free to present (60_exceptions.md R137). -/

namespace Sys2Proof

/-- The configuration of one engine, with the proof that it is legal (R7, R9). An illegal one cannot be written down,
which is how the model refuses it (93_implementation_defined.md U6). -/
structure Config where
  /-- N, the number of slots. -/
  n : Nat
  /-- S, the width of one slot in bits, sentinel included. -/
  s : Nat
  /-- W, the width of the packed register in bits. -/
  w : Nat
  /-- P, the number of requester ports. -/
  p : Nat
  /-- FLOAT_FMT, the format of the ratio result. -/
  fmt : FloatFmt
  n_pos  : 1 ≤ n
  n_le   : n ≤ 64
  s_ge   : 2 ≤ s
  fits   : n * s ≤ w
  p_pos  : 1 ≤ p
  fmt_ok : fmt.covers s = true
deriving DecidableEq, Repr

/-- The shipped 2 × 16 in 32 instance with `P` = `ports` (R2, R8). -/
def Config.cfg32 (ports : Nat) (h : 1 ≤ ports) : Config :=
  { n := 2, s := 16, w := 32, p := ports, fmt := .binary64, n_pos := by decide, n_le := by decide,
    s_ge := by decide, fits := by decide, p_pos := h, fmt_ok := by decide }

/-- The shipped 4 × 16 in 64 instance with `P` = `ports` (R2, R8). -/
def Config.cfg64 (ports : Nat) (h : 1 ≤ ports) : Config :=
  { n := 4, s := 16, w := 64, p := ports, fmt := .binary64, n_pos := by decide, n_le := by decide,
    s_ge := by decide, fits := by decide, p_pos := h, fmt_ok := by decide }

/-- CFG32 with one port. -/
def Config.shipped32 : Config := Config.cfg32 1 (by decide)

/-- CFG64 with one port. -/
def Config.shipped64 : Config := Config.cfg64 1 (by decide)

/-- The instance `State.reset` is built of: CFG64 with two ports. DESIGN CHOICE (log entry 1): the spec has two shipped
instances and leaves P open. -/
def Config.atReset : Config := Config.cfg64 2 (by decide)

/-- FREE VALUE. The open arbitration (D14, R103, 93_implementation_defined.md U1): which of several enabled steps is
next, as an uninterpreted function of the number of choices drawn so far. Nothing in Lean can evaluate it (log entry 3). -/
opaque Config.freeChoice : Nat → Nat

/-- FREE VALUE. The next word of a requester that presents whatever it likes (R137), as an uninterpreted function of the
number of free values drawn so far (log entry 5). -/
opaque Config.freeWord : Nat → CmdWord

end Sys2Proof
end

