-- ==== Sys2Proof/Syntax.lean ====
section
/-! DEFINITION. The two commands of the engine (30_encoding.md R56, spec/opcode_table.json) and the slot names of its
assembler syntax (R65). -/

namespace Sys2Proof

/-- A command. One constructor per row of spec/opcode_table.json. -/
inductive Instr where
  /-- `INC k` (R58, R88): count one event in slot `k`. -/
  | inc (k : SlotIx)
  /-- `RATIO a, b` (R59, R106): slot `a` divided by slot `b`. -/
  | ratio (a b : SlotIx)
deriving DecidableEq, Repr

/-- The slot names of the assembler syntax (R65). -/
inductive SlotName where
  | A
  | B
  | C
  | D
deriving DecidableEq, Repr

end Sys2Proof
end

