-- ==== Sys2Proof/WellFormed.lean ====
section
/-! DEFINITION. The two well-formedness checks: the parameters of an instance (00_scope.md R7, R9) and the slot indices
of a command (30_encoding.md R58, R59). -/

namespace Sys2Proof

/-- The configuration with these parameters, or `none` when they are not legal (R7, R9, U6). -/
def Config.ofParams (n s w p : Nat) (fmt : FloatFmt) : Option Config :=
  if h : 1 ≤ n ∧ n ≤ 64 ∧ 2 ≤ s ∧ n * s ≤ w ∧ 1 ≤ p ∧ fmt.covers s = true then
    some { n := n, s := s, w := w, p := p, fmt := fmt, n_pos := h.1, n_le := h.2.1, s_ge := h.2.2.1,
           fits := h.2.2.2.1, p_pos := h.2.2.2.2.1, fmt_ok := h.2.2.2.2.2 }
  else none

/-- A command is well formed in a configuration when every slot it names exists: `k < N` (R58), `a < N` and `b < N`
with `a = b` allowed (R59). -/
def Instr.wf (c : Config) : Instr → Bool
  | .inc k => decide (k.toNat < c.n)
  | .ratio a b => decide (a.toNat < c.n) && decide (b.toNat < c.n)

end Sys2Proof
end

