-- ==== Sys2Proof/Decode.lean ====
section
/-! DEFINITION. The decoder, total on all 65536 command words (30_encoding.md R57 to R61), the encoder, the rows of the
opcode table, and the assembler forms (R64 to R66). -/

namespace Sys2Proof

/-- Bits 15:12 of a command word: the operation (R57). -/
def opField (w : CmdWord) : BitVec 4 := w.extractLsb' 12 4

/-- Bits 11:6 of a command word: the slot of `INC`, the numerator slot of `RATIO` (R57). -/
def aField (w : CmdWord) : SlotIx := w.extractLsb' 6 6

/-- Bits 5:0 of a command word: the denominator slot of `RATIO`, zero for `INC` (R57). -/
def bField (w : CmdWord) : SlotIx := w.extractLsb' 0 6

/-- Why a word is illegal: the clauses (a) to (d) of R60. The engine reports one status for all of them (R127). -/
inductive Illegal where
  /-- (a) `op` is neither `0x1` nor `0x2`. -/
  | reservedOp
  /-- (b) `op = 0x1` and `b ≠ 0`. -/
  | reservedField
  /-- (c) `op = 0x1` and `a ≥ N`. -/
  | incSlot
  /-- (d) `op = 0x2` and `a ≥ N` or `b ≥ N`. -/
  | ratioSlot
deriving DecidableEq, Repr

/-- The decoder (R61): the command a word stands for in configuration `c`, or the clause of R60 it falls under. -/
def decode (c : Config) (w : CmdWord) : Except Illegal Instr :=
  if opField w = 0x1#4 then
    if bField w = 0#6 then
      if (aField w).toNat < c.n then .ok (.inc (aField w)) else .error .incSlot
    else .error .reservedField
  else if opField w = 0x2#4 then
    if (aField w).toNat < c.n ∧ (bField w).toNat < c.n then .ok (.ratio (aField w) (bField w))
    else .error .ratioSlot
  else .error .reservedOp

/-- The encoder (R61): `{0x1, k, 0}` for `INC k` (R58), `{0x2, a, b}` for `RATIO a, b` (R59). -/
def encode : Instr → CmdWord
  | .inc k => (0x1#4 ++ k) ++ 0#6
  | .ratio a b => (0x2#4 ++ a) ++ b

/-- A row of spec/opcode_table.json: the bits of the word that identify the instruction. -/
structure OpcodeRow where
  mnemonic : String
  mask     : CmdWord
  pattern  : CmdWord
deriving DecidableEq, Repr

/-- The row of the opcode table a command belongs to (R58, R59). -/
def Instr.row : Instr → OpcodeRow
  | .inc _ => { mnemonic := "INC", mask := 0xF03F#16, pattern := 0x1000#16 }
  | .ratio _ _ => { mnemonic := "RATIO", mask := 0xF000#16, pattern := 0x2000#16 }

/-- The slot index a name stands for (R65). -/
def SlotName.index : SlotName → SlotIx
  | .A => 0#6
  | .B => 1#6
  | .C => 2#6
  | .D => 3#6

/-- The pseudo-operation `RATIO_x_OVER_y`, for names `x ≠ y`: `RATIO x, y` (R66, 42_ratio_query.md R122). -/
def accessor (x y : SlotName) : Option Instr :=
  if x = y then none else some (.ratio x.index y.index)

/-- A command in the spec's assembler syntax, slots as decimal indices (R64). -/
def Instr.asm : Instr → String
  | .inc k => "INC " ++ toString k.toNat
  | .ratio a b => "RATIO " ++ toString a.toNat ++ ", " ++ toString b.toNat

/-- A command with its port prefix (R64). -/
def Instr.asmOn (p : Nat) (i : Instr) : String := "p" ++ toString p ++ ": " ++ i.asm

/-- The command word held by a number whose bits above `nbits` count as zero. There is one instruction length, 16 bits
(R63), and no byte order (20_memory.md R40): bit i of the number is bit i of the word. -/
def cmdWordOf (nbits w : Nat) : CmdWord := BitVec.ofNat 16 (w % 2 ^ nbits)

/-- The command the decoder reads from an instruction whose bits are `w`, in the configuration of `State.reset`. -/
def decodeTableWord (nbits w : Nat) : Option Instr :=
  match decode Config.atReset (cmdWordOf nbits w) with
  | .ok i => some i
  | .error _ => none

end Sys2Proof
end

