-- ==== Sys2Proof/Machine/State.lean ====
section
/-! DEFINITION. The state of the engine as plain data (10_state.md R13): the shared register, the ports with their phase
and latches, the history; beside it the configuration (R6, never changed) and what stands outside the engine or is the
model's own (words waiting at the ports, the order of turns). -/

namespace Sys2Proof.Machine

/-- Why the machine could stop with a fault. It has no constructor: no legal command faults, and an illegal word is
answered by a response (60_exceptions.md R124, R127; log entry 13). -/
inductive Fault where
deriving DecidableEq, Repr

/-- Why an instruction has no meaning. -/
inductive Refusal where
  /-- Raised by `exec` for an instruction whose meaning is not written yet, by mnemonic. Safe: the machine stops. No arm
  raises it in this model. -/
  | notModelled (mnemonic : String)
deriving DecidableEq, Repr

/-- The phase `PH[p]` of a port (R28). -/
inductive Phase where
  | idle
  | incLoad
  | incCas
  | ratioLoad
  | done
deriving DecidableEq, Repr

/-- The status of a response (30_encoding.md R62). -/
inductive Status where
  | ok
  | illegal
deriving DecidableEq, Repr

/-- A response, the pair of R62: `status` and `data` of the width of FLOAT_FMT. -/
structure Response (c : Config) where
  status : Status
  data   : BitVec c.fmt.width
deriving DecidableEq, Repr

/-- What port `p` holds: its phase (R28) and its latches (R29). -/
structure Port (c : Config) where
  /-- `PH[p]` -/
  ph  : Phase
  /-- `OPA[p]`: the slot of `INC`, the numerator slot of `RATIO`. -/
  opa : SlotIx
  /-- `OPB[p]`: the denominator slot of `RATIO`. -/
  opb : SlotIx
  /-- `CUR[p]`: the value last read from `REG` for an `INC`. -/
  cur : BitVec c.w
  /-- `RSP[p]`: the response. -/
  rsp : Response c
deriving DecidableEq, Repr

/-- An event of the history `H` (R30). -/
inductive Event (c : Config) where
  | reset
  | accept (p : Fin c.p) (w : CmdWord)
  | iload (p : Fin c.p) (v : BitVec c.w)
  | casOk (p : Fin c.p) (old new : BitVec c.w)
  | casFail (p : Fin c.p) (expected : BitVec c.w)
  | rload (p : Fin c.p) (v : BitVec c.w)
  | complete (p : Fin c.p) (status : Status) (data : BitVec c.fmt.width)
deriving DecidableEq, Repr

/-- The complete state of the engine (R13), with the spec's ghost history (R30). -/
structure Engine (c : Config) where
  /-- `REG`, the packed register (R14). -/
  reg   : BitVec c.w
  /-- The `P` ports (R27). -/
  ports : Vector (Port c) c.p
  /-- `H`, oldest event first. -/
  hist  : List (Event c)
deriving DecidableEq, Repr

/-- Which agent takes the next step (60_exceptions.md R135). -/
inductive Turn (c : Config) where
  /-- The requester of port `p` presents its next word. -/
  | requester (p : Fin c.p)
  /-- Port `p` takes the step its phase enables. -/
  | port (p : Fin c.p)
  /-- The environment resets the engine. -/
  | reset
deriving DecidableEq, Repr

/-- What the requester of a port presents once its listed words are used up (60_exceptions.md R137, log entry 5). -/
inductive Supply where
  /-- Nothing more. -/
  | nothing
  /-- The words `w :: ws`, over and over. -/
  | again (w : CmdWord) (ws : List CmdWord)
  /-- Any words whatever, without end. -/
  | free
deriving DecidableEq, Repr

/-- What is outside the engine or the model's own, not state of the hardware (log entries 3, 5 and 7). -/
structure Env (c : Config) where
  /-- The port whose turn the current step is. -/
  act    : Fin c.p
  /-- The words each port's requester has to present next, in order. -/
  inbox  : Vector (List CmdWord) c.p
  /-- What each port's requester presents when its list is empty. -/
  supply : Vector Supply c.p
  /-- The agents that take the next turns, in order. -/
  sched  : List (Turn c)
  /-- The agents that take the turns after those, over and over. When both lists are empty the choice is free among the
  enabled steps. -/
  round  : List (Turn c)
  /-- How many free values have been drawn. -/
  tick   : Nat
deriving DecidableEq, Repr

/-- The machine: the configuration, the engine, and what stands around it. -/
structure State where
  cfg : Config
  hw  : Engine cfg
  env : Env cfg
deriving DecidableEq, Repr

/-- A port after reset: `IDLE` (R33). DESIGN CHOICE: its latches, which the spec leaves without a value, are zero
(log entry 2). -/
def Port.atReset (c : Config) : Port c :=
  { ph := .idle, opa := 0, opb := 0, cur := 0, rsp := { status := .ok, data := 0 } }

/-- The engine after reset (R33, 70_reset_and_hazards.md R139): `REG` zero, every port `IDLE`, `H = [Reset]`. -/
def Engine.atReset (c : Config) : Engine c :=
  { reg := 0, ports := Vector.replicate c.p (Port.atReset c), hist := [.reset] }

/-- Nothing presented and no turn laid down (log entries 3, 5 and 7). -/
def Env.quiet (c : Config) : Env c :=
  { act := ⟨0, c.p_pos⟩, inbox := Vector.replicate c.p [], supply := Vector.replicate c.p .nothing, sched := [],
    round := [], tick := 0 }

/-- An engine of any legal configuration right after reset, with nothing presented. -/
def State.resetOf (c : Config) : State :=
  { cfg := c, hw := Engine.atReset c, env := Env.quiet c }

/-- The machine right after reset, in the configuration `Config.atReset` (log entry 1). -/
def State.reset : State := State.resetOf Config.atReset

end Sys2Proof.Machine
end

