-- ==== Sys2Proof/Machine/Operands.lean ====
section
/-! DEFINITION. The constants derived from `(N, S, W)` (00_scope.md R8, 10_state.md R21 to R25) and the fields of a
packed value (00_scope.md R10, 30_encoding.md R52, R55). Slot numbers are naturals here; a command's 6-bit index enters by
`toNat`. -/

namespace Sys2Proof.Machine

/-- `U = S − 1`, the usable bits of a slot (R25). -/
def usable (c : Config) : Nat := c.s - 1

/-- `VMAX = 2^U − 1`, the largest slot value and the extraction mask (R25). -/
def vmax (c : Config) : Nat := 2 ^ usable c - 1

/-- `OFF[k] = k × S` (R21). -/
def off (c : Config) (k : Nat) : Nat := k * c.s

/-- `SLACK = W − N × S`, the unused top bits (R8, R17). -/
def slackBits (c : Config) : Nat := c.w - c.n * c.s

/-- `UNIT[k] = 1 << OFF[k]` (R22). -/
def unit (c : Config) (k : Nat) : BitVec c.w := 1#c.w <<< off c k

/-- The bit position of the sentinel of slot `k` (R16, R23). -/
def sentPos (c : Config) (k : Nat) : Nat := off c k + (c.s - 1)

/-- The union of the sentinel bits of the slots below `k`. -/
def sentMaskBelow (c : Config) : Nat → BitVec c.w
  | 0 => 0#c.w
  | k + 1 => sentMaskBelow c k ||| (1#c.w <<< sentPos c k)

/-- `SENT_MASK`, the union of all slots' sentinel bits (R23). -/
def sentMask (c : Config) : BitVec c.w := sentMaskBelow c c.n

/-- `KEEP_MASK = ~SENT_MASK` in `W` bits (R24). -/
def keepMask (c : Config) : BitVec c.w := ~~~ sentMask c

/-- `value(v, k) = (v >> OFF[k]) & VMAX`, as a number (R10, R55). -/
def value (c : Config) (v : BitVec c.w) (k : Nat) : Nat :=
  ((v >>> off c k) &&& BitVec.ofNat c.w (vmax c)).toNat

/-- `sent(v, k)`, the sentinel bit of slot `k` (R10). -/
def sent (c : Config) (v : BitVec c.w) (k : Nat) : Bool := v.getLsbD (sentPos c k)

/-- `slot(v, k)`, the whole slot as an `S`-bit number (R10). -/
def slot (c : Config) (v : BitVec c.w) (k : Nat) : BitVec c.s := v.extractLsb' (off c k) c.s

/-- The status bit of a response: `0` = `OK`, `1` = `ILLEGAL` (30_encoding.md R62). -/
def Status.bit : Status → BitVec 1
  | .ok => 0#1
  | .illegal => 1#1

end Sys2Proof.Machine
end

