-- ==== Sys2Proof/Machine/Flags.lean ====
section
/-! DEFINITION. The one flag of the engine, the transient overflow condition, and the sum it is tested on
(40_compute_next.md R69, R70). Neither is stored (10_state.md R31). -/

namespace Sys2Proof.Machine

/-- Step 1, `SUM(v, k) = (v + UNIT[k]) mod 2^W` (R69). -/
def sum (c : Config) (v : BitVec c.w) (k : Nat) : BitVec c.w := v + unit c k

/-- Step 2, `OVF(v, k)`: is the sentinel bit of any slot set in the sum (R70)? -/
def ovf (c : Config) (v : BitVec c.w) (k : Nat) : Bool := decide (sum c v k &&& sentMask c ≠ 0#c.w)

end Sys2Proof.Machine
end

