-- ==== Sys2Proof/Machine/Next.lean ====
section
/-! DEFINITION. Compute next value (40_compute_next.md R68, R71 to R73). -/

namespace Sys2Proof.Machine

/-- Step 4, the decayed result: the sum shifted right by one bit as a whole, sentinel positions cleared (R72). -/
def decayed (c : Config) (v : BitVec c.w) (k : Nat) : BitVec c.w := (sum c v k >>> 1) &&& keepMask c

/-- `NEXT(v, k)` (R73): the sum when no sentinel bit is set in it (R71), else the decayed result (R72). Total on every
`W`-bit value (R68, R85). -/
def nextValue (c : Config) (v : BitVec c.w) (k : Nat) : BitVec c.w :=
  if ovf c v k then decayed c v k else sum c v k

end Sys2Proof.Machine
end

