-- ==== Sys2Proof/Machine/Ops.lean ====
section
/-! DEFINITION. The shared operations: the two primitives of the register (20_memory.md R35, R36), writing a port and
recording an event, the exception `IllegalCommand` (60_exceptions.md R127) with the `COMPLETE` step that ends it and every
command (41_cas_update.md R94), a turn that passes, and `RESET` (70_reset_and_hazards.md R139). -/

namespace Sys2Proof.Machine

variable {c : Config}

/-- `LOAD()`: the whole of `REG` as it stands, nothing changed (R35, R39). -/
def Engine.load (e : Engine c) : BitVec c.w := e.reg

/-- `CAS(expected, new)` (R36): all `W` bits compared, all `W` bits written on success, only the verdict returned
(R49: it fails only when `REG` differs). -/
def Engine.cas (e : Engine c) (expected new : BitVec c.w) : Bool × Engine c :=
  if e.reg = expected then (true, { e with reg := new }) else (false, e)

/-- What port `p` holds. -/
def Engine.port (e : Engine c) (p : Fin c.p) : Port c := e.ports[p]

/-- Replace what port `p` holds. -/
def Engine.setPort (e : Engine c) (p : Fin c.p) (x : Port c) : Engine c :=
  { e with ports := e.ports.set p.val x p.isLt }

/-- `H <- H ++ [ev]` (10_state.md R30). -/
def Engine.record (e : Engine c) (ev : Event c) : Engine c := { e with hist := e.hist ++ [ev] }

/-- `raise IllegalCommand(w)` on port `p` (R127): the response `(ILLEGAL, 0)`, phase `DONE`, event `Accept`; `REG` and
every other port untouched. -/
def raiseIllegal (e : Engine c) (p : Fin c.p) (w : CmdWord) : Engine c :=
  (e.setPort p { e.port p with ph := .done, rsp := { status := .illegal, data := 0 } }).record (.accept p w)

/-- Step `COMPLETE(p)` (R94, R118, R127): the response is delivered and the port is `IDLE`. The delivery is the event
(log entry 10). -/
def complete (e : Engine c) (p : Fin c.p) : Engine c :=
  (e.setPort p { e.port p with ph := .idle }).record (.complete p (e.port p).rsp.status (e.port p).rsp.data)

/-- A turn of a port for a command it does not hold: the command is not accepted and waits (R149, log entry 9). -/
def notAccepted (e : Engine c) : Engine c := e

/-- Step `RESET` (R139, R140): `REG` zero, every port `IDLE`, commands in flight dropped, `H = [Reset]`. The latches take
the values they have in `State.reset` (log entries 2 and 6). -/
def resetEngine (_e : Engine c) : Engine c := Engine.atReset c

end Sys2Proof.Machine
end

