-- ==== Sys2Proof/Machine/Inc.lean ====
section
/-! DEFINITION. The command `INC k` (41_cas_update.md R88 to R95): accept, load, compute and swap, retry on failure,
complete. -/

namespace Sys2Proof.Machine

variable {c : Config}

/-- Step `ACCEPT(p, w)` of `INC k` (R89). -/
def incAccept (e : Engine c) (p : Fin c.p) (k : SlotIx) : Engine c :=
  (e.setPort p { e.port p with opa := k, ph := .incLoad }).record (.accept p (encode (.inc k)))

/-- Step `ILOAD(p)` (R90). -/
def incLoad (e : Engine c) (p : Fin c.p) : Engine c :=
  (e.setPort p { e.port p with cur := e.load, ph := .incCas }).record (.iload p e.load)

/-- Step `CAS(p)` (R91 to R93): swap `CUR` for `NEXT(CUR, OPA)`; on success the response is `(OK, 0)` and the phase
`DONE`; on failure the phase goes back to `INC_LOAD`. -/
def incCas (e : Engine c) (p : Fin c.p) : Engine c :=
  match e.cas (e.port p).cur (nextValue c (e.port p).cur (e.port p).opa.toNat) with
  | (true, e') =>
    (e'.setPort p { e.port p with rsp := { status := .ok, data := 0 }, ph := .done }).record (.casOk p e.reg e'.reg)
  | (false, e') =>
    (e'.setPort p { e.port p with ph := .incLoad }).record (.casFail p (e.port p).cur)

/-- The step port `p` takes for `INC k`, by its phase (10_state.md R28). An index `≥ N` is the word R60 (c) calls illegal. -/
def incStep (e : Engine c) (p : Fin c.p) (k : SlotIx) : Engine c :=
  match (e.port p).ph with
  | .idle => if k.toNat < c.n then incAccept e p k else raiseIllegal e p (encode (.inc k))
  | .incLoad => if (e.port p).opa = k then incLoad e p else notAccepted e
  | .incCas => if (e.port p).opa = k then incCas e p else notAccepted e
  | .ratioLoad => notAccepted e
  | .done => complete e p

/-- The meaning of `INC k` at the port whose turn it is. -/
def execInc (k : SlotIx) (s : State) : Host.Outcome State Fault Refusal :=
  .next { cfg := s.cfg, hw := incStep s.hw s.env.act k, env := s.env }

end Sys2Proof.Machine
end

