-- ==== Sys2Proof/Machine/Ratio.lean ====
section
/-! DEFINITION. The command `RATIO a, b` (42_ratio_query.md R106 to R118, R123): accept, one load with extraction,
division and rounding, complete. -/

namespace Sys2Proof.Machine

variable {c : Config}

/-- `RATIOQ(v, a, b)`, the exact rational (R109 to R111): zero when the denominator slot is zero. -/
def ratioQ (c : Config) (v : BitVec c.w) (a b : Nat) : Rat :=
  if value c v b = 0 then 0 else mkRat (value c v a) (value c v b)

/-- The `data` of a `RATIO` response (R108, R112). -/
def ratioData (c : Config) (v : BitVec c.w) (a b : Nat) : BitVec c.fmt.width := roundFmt c.fmt (ratioQ c v a b)

/-- Step `ACCEPT(p, w)` of `RATIO a, b` (R107). -/
def ratioAccept (e : Engine c) (p : Fin c.p) (a b : SlotIx) : Engine c :=
  (e.setPort p { e.port p with opa := a, opb := b, ph := .ratioLoad }).record (.accept p (encode (.ratio a b)))

/-- Step `RLOAD(p)` (R108): one load, the response, phase `DONE`. -/
def ratioLoad (e : Engine c) (p : Fin c.p) : Engine c :=
  (e.setPort p { e.port p with
      rsp := { status := .ok, data := ratioData c e.load (e.port p).opa.toNat (e.port p).opb.toNat },
      ph := .done }).record (.rload p e.load)

/-- The step port `p` takes for `RATIO a, b`, by its phase (10_state.md R28). An index `≥ N` is the word R60 (d) calls
illegal. -/
def ratioStep (e : Engine c) (p : Fin c.p) (a b : SlotIx) : Engine c :=
  match (e.port p).ph with
  | .idle =>
    if a.toNat < c.n ∧ b.toNat < c.n then ratioAccept e p a b else raiseIllegal e p (encode (.ratio a b))
  | .incLoad => notAccepted e
  | .incCas => notAccepted e
  | .ratioLoad => if (e.port p).opa = a ∧ (e.port p).opb = b then ratioLoad e p else notAccepted e
  | .done => complete e p

/-- The meaning of `RATIO a, b` at the port whose turn it is. -/
def execRatio (a b : SlotIx) (s : State) : Host.Outcome State Fault Refusal :=
  .next { cfg := s.cfg, hw := ratioStep s.hw s.env.act a b, env := s.env }

end Sys2Proof.Machine
end

