-- ==== Sys2Proof/Machine/Dispatch.lean ====
section
/-! DEFINITION. The dispatch of an instruction to its meaning. -/

namespace Sys2Proof.Machine

def exec (i : Instr) (s : State) : Host.Outcome State Fault Refusal :=
  match i with
  | .inc k => Sys2Proof.Machine.execInc k s
  | .ratio a b => Sys2Proof.Machine.execRatio a b s

end Sys2Proof.Machine
end

