-- ==== Sys2Proof/Machine/Sequencer.lean ====
section
/-! DEFINITION. Who takes the next step and what that step is (60_exceptions.md R135): the enabled steps, the draw of a
turn, a requester presenting its next word, a port taking the step of the command it holds. -/

namespace Sys2Proof.Machine

variable {c : Config}

/-- The word the requester of port `p` presents at its next turn, if any (60_exceptions.md R137): the head of its list,
then what its supply gives. -/
def Env.offered (v : Env c) (p : Fin c.p) : Option CmdWord :=
  match v.inbox[p] with
  | w :: _ => some w
  | [] =>
    match v.supply[p] with
    | .nothing => none
    | .again w _ => some w
    | .free => some (Config.freeWord v.tick)

/-- The surroundings once port `p` has accepted that word. -/
def Env.taken (v : Env c) (p : Fin c.p) : Env c :=
  match v.inbox[p] with
  | _ :: ws => { v with inbox := v.inbox.set p.val ws p.isLt }
  | [] =>
    match v.supply[p] with
    | .nothing => v
    | .again _ ws => { v with inbox := v.inbox.set p.val ws p.isLt }
    | .free => { v with tick := v.tick + 1 }

/-- The step of R135's table that port `p` or its requester has enabled, if any: a phase other than `IDLE` enables the
port's own step, `IDLE` with a word to present enables `ACCEPT`. -/
def enabledTurn (e : Engine c) (v : Env c) (p : Fin c.p) : Option (Turn c) :=
  match (e.port p).ph with
  | .idle => if v.offered p = none then none else some (.requester p)
  | .incLoad => some (.port p)
  | .incCas => some (.port p)
  | .ratioLoad => some (.port p)
  | .done => some (.port p)

/-- All enabled steps but `RESET`, at most one per port. -/
def enabledTurns (e : Engine c) (v : Env c) : List (Turn c) := (List.finRange c.p).filterMap (enabledTurn e v)

/-- The next turn (R103, D14, log entry 3): the head of the laid-down order, which begins again with its round when it is
used up; when nothing is laid down, the only enabled step, or a free choice among several; none when no step is enabled. -/
def drawTurn (e : Engine c) (v : Env c) : Option (Turn c) × Env c :=
  match v.sched, v.round with
  | t :: ts, _ => (some t, { v with sched := ts })
  | [], t :: ts => (some t, { v with sched := ts })
  | [], [] =>
    match enabledTurns e v with
    | [] => (none, v)
    | [t] => (some t, v)
    | t :: u :: ts =>
      ((t :: u :: ts)[Config.freeChoice v.tick % (t :: u :: ts).length]?, { v with tick := v.tick + 1 })

/-- The command a busy port holds, read from its phase and operand latches (10_state.md R28, R29). -/
def heldInstr (x : Port c) : Option Instr :=
  match x.ph with
  | .idle => none
  | .incLoad => some (.inc x.opa)
  | .incCas => some (.inc x.opa)
  | .ratioLoad => some (.ratio x.opa x.opb)
  | .done => none

/-- Step `ACCEPT(p, w)` (41_cas_update.md R89, 42_ratio_query.md R107, 60_exceptions.md R127): an `IDLE` port takes its
requester's next word and begins the command it decodes to, or raises `IllegalCommand`. A word offered to a busy port waits
(R149); with no word to present the turn passes. -/
def presentWord (e : Engine c) (v : Env c) (p : Fin c.p) : Host.Outcome State Fault Refusal :=
  match (e.port p).ph, v.offered p with
  | .idle, some w =>
    match decode c w with
    | .ok i => exec i ⟨c, e, { v.taken p with act := p }⟩
    | .error _ => .next ⟨c, raiseIllegal e p w, { v.taken p with act := p }⟩
  | _, _ => .next ⟨c, e, { v with act := p }⟩

/-- A turn of port `p`: the next step of the command it holds, `COMPLETE` in phase `DONE`, nothing in phase `IDLE`. -/
def portTurn (e : Engine c) (v : Env c) (p : Fin c.p) : Host.Outcome State Fault Refusal :=
  match heldInstr (e.port p) with
  | some i => exec i ⟨c, e, { v with act := p }⟩
  | none =>
    match (e.port p).ph with
    | .done => .next ⟨c, complete e p, { v with act := p }⟩
    | _ => .next ⟨c, e, { v with act := p }⟩

/-- One turn. `none`: no agent has an enabled step, and the engine does nothing until a requester presents a word
(70_reset_and_hazards.md R139). -/
def runTurn (e : Engine c) (v : Env c) : Option (Turn c) → Host.Outcome State Fault Refusal
  | none => .next ⟨c, e, v⟩
  | some (.requester p) => presentWord e v p
  | some (.port p) => portTurn e v p
  | some .reset => .next ⟨c, resetEngine e, v⟩

/-- Draw a turn and take it. -/
def takeTurn (s : State) : Host.Outcome State Fault Refusal :=
  runTurn s.hw (drawTurn s.hw s.env).2 (drawTurn s.hw s.env).1

/-- Make port 0 `IDLE` and `w` the next word its requester presents, as the very next turn (log entry 11). -/
def presentNext (s : State) (w : CmdWord) : State :=
  { cfg := s.cfg
    hw := s.hw.setPort ⟨0, s.cfg.p_pos⟩ { s.hw.port ⟨0, s.cfg.p_pos⟩ with ph := .idle }
    env := { s.env with
      inbox := s.env.inbox.set 0 (w :: s.env.inbox[(⟨0, s.cfg.p_pos⟩ : Fin s.cfg.p)]) s.cfg.p_pos
      sched := .requester ⟨0, s.cfg.p_pos⟩ :: s.env.sched } }

end Sys2Proof.Machine
end

