-- ==== Sys2Proof/Machine/Step.lean ====
section
/-! DEFINITION. One step of the machine: one atomic action of one agent (60_exceptions.md R135). -/

namespace Sys2Proof.Machine

/-- One step: the next agent takes its turn. -/
def step (s : State) : Host.Outcome State Fault Refusal := takeTurn s

/-- `s` with the instruction of bits `w` presented at port 0 as the very next turn. The engine fetches nothing (10_state.md
R28): presenting a word on a port is how an instruction reaches it (log entry 11). -/
def State.withFetchWord (s : State) (nbits w : Nat) : State := presentNext s (cmdWordOf nbits w)

end Sys2Proof.Machine
end

