-- ==== Sys2Proof/Safety.lean ====
section
/-! DEFINITION. What the claims about the engine speak of: well-formed values and states (10_state.md R18, 40_compute_next.md
WF), the reading of a history as a run of the rules (R44, R97, R98), the spec's step relation (60_exceptions.md R135),
reachability, the end of a run (70_reset_and_hazards.md R144), weak fairness (R153), and what of a port's latches a phase keeps alive (R29). -/

namespace Sys2Proof.Machine

variable {c : Config}

/-! ### Well-formed values and states -/

/-- `I1(v)`: every sentinel bit is zero (10_state.md R18). -/
def I1 (c : Config) (v : BitVec c.w) : Bool := decide (v &&& sentMask c = 0#c.w)

/-- The slack bits of `v` are zero (R17). -/
def slackZero (c : Config) (v : BitVec c.w) : Bool := decide (v >>> (c.n * c.s) = 0#c.w)

/-- `WF(v)` (40_compute_next.md, before R68). -/
def WF (c : Config) (v : BitVec c.w) : Bool := I1 c v && slackZero c v

/-- A response R62 and R114 allow: all zeros with `ILLEGAL`; all zeros (of an `INC`), `+0` or a finite positive number with
`OK`. -/
def Response.sound (r : Response c) : Bool :=
  match r.status with
  | .illegal => decide (r.data = 0)
  | .ok => decide (r.data = 0) || decide (r.data = plusZero c.fmt) || isPositiveFinite c.fmt r.data

/-- What a port holds in its phase is as R29 says: operand latches below `N`, a loaded value `REG` can have held, a
response of the allowed form. -/
def Port.sound (x : Port c) : Bool :=
  match x.ph with
  | .idle => true
  | .incLoad => decide (x.opa.toNat < c.n)
  | .incCas => decide (x.opa.toNat < c.n) && WF c x.cur
  | .ratioLoad => decide (x.opa.toNat < c.n) && decide (x.opb.toNat < c.n)
  | .done => x.rsp.sound

/-- The invariant of the engine: `REG` is well formed (R87) and every port is sound. -/
def Engine.Sound (e : Engine c) : Prop := WF c e.reg = true ∧ ∀ p : Fin c.p, (e.port p).sound = true

/-! ### Histories -/

/-- The value of `REG` after an event, from its value `v` before; `none` when the event cannot happen there. Loads see the
current value (20_memory.md R35, R44), a successful swap replaces the value it found by `NEXT` of it for some slot (R36, R37),
a swap fails only when its expected value is not current (R49). -/
def regAfter (v : BitVec c.w) : Event c → Option (BitVec c.w)
  | .reset => some 0
  | .accept _ _ => some v
  | .iload _ x => if x = v then some v else none
  | .casOk _ old new => if old = v ∧ ∃ k, k < c.n ∧ new = nextValue c old k then some new else none
  | .casFail _ x => if x = v then none else some v
  | .rload _ x => if x = v then some v else none
  | .complete _ _ _ => some v

/-- The value of `REG` after a list of events, oldest first. -/
def regAfterAll (v : BitVec c.w) : List (Event c) → Option (BitVec c.w)
  | [] => some v
  | ev :: evs => (regAfter v ev).bind (fun v' => regAfterAll v' evs)

/-- What one port is in the middle of, as its own events tell it. -/
inductive Progress (c : Config) where
  | idle
  | incLoad (k : SlotIx)
  | incCas (k : SlotIx) (v : BitVec c.w)
  | ratioLoad (a b : SlotIx)
  | done (r : Response c)
deriving DecidableEq, Repr

/-- The progress of an idle port that accepts `w` (41_cas_update.md R89, 42_ratio_query.md R107, 60_exceptions.md R127). -/
def Progress.begin (c : Config) (w : CmdWord) : Progress c :=
  match decode c w with
  | .ok (.inc k) => .incLoad k
  | .ok (.ratio a b) => .ratioLoad a b
  | .error _ => .done { status := .illegal, data := 0 }

/-- The progress of port `p` after an event (10_state.md R28, 41_cas_update.md R89 to R94, 42_ratio_query.md R107, R108);
`none` when the event is not one port `p` can cause there. Events of other ports leave it alone. -/
def Progress.after (p : Fin c.p) (m : Progress c) : Event c → Option (Progress c)
  | .reset => some .idle
  | .accept q w =>
    if q = p then match m with
      | .idle => some (Progress.begin c w)
      | .incLoad _ | .incCas _ _ | .ratioLoad _ _ | .done _ => none
    else some m
  | .iload q v =>
    if q = p then match m with
      | .incLoad k => some (.incCas k v)
      | .idle | .incCas _ _ | .ratioLoad _ _ | .done _ => none
    else some m
  | .casOk q old new =>
    if q = p then match m with
      | .incCas k v =>
        if old = v ∧ new = nextValue c v k.toNat then some (.done { status := .ok, data := 0 }) else none
      | .idle | .incLoad _ | .ratioLoad _ _ | .done _ => none
    else some m
  | .casFail q x =>
    if q = p then match m with
      | .incCas k v => if x = v then some (.incLoad k) else none
      | .idle | .incLoad _ | .ratioLoad _ _ | .done _ => none
    else some m
  | .rload q v =>
    if q = p then match m with
      | .ratioLoad a b => some (.done { status := .ok, data := ratioData c v a.toNat b.toNat })
      | .idle | .incLoad _ | .incCas _ _ | .done _ => none
    else some m
  | .complete q st d =>
    if q = p then match m with
      | .done r => if r = { status := st, data := d } then some .idle else none
      | .idle | .incLoad _ | .incCas _ _ | .ratioLoad _ _ => none
    else some m

/-- The progress of port `p` after a list of events, oldest first. -/
def Progress.afterAll (p : Fin c.p) (m : Progress c) : List (Event c) → Option (Progress c)
  | [] => some m
  | ev :: evs => (m.after p ev).bind (fun m' => m'.afterAll p evs)

/-- The progress a port's phase and live latches stand for. -/
def Port.progress (x : Port c) : Progress c :=
  match x.ph with
  | .idle => .idle
  | .incLoad => .incLoad x.opa
  | .incCas => .incCas x.opa x.cur
  | .ratioLoad => .ratioLoad x.opa x.opb
  | .done => .done x.rsp

/-- The history explains the state: it begins with `Reset` and has no other (R33, R139), read from zero it gives the value
of `REG`, and read for any port it gives what that port holds. -/
def Engine.Explained (e : Engine c) : Prop :=
  e.hist.head? = some .reset ∧ .reset ∉ e.hist.tail ∧ regAfterAll 0 e.hist = some e.reg ∧
  ∀ p : Fin c.p, Progress.afterAll p .idle e.hist = some (e.port p).progress

/-- How many events of a history are successful swaps. -/
def successCount : List (Event c) → Nat
  | [] => 0
  | .casOk _ _ _ :: evs => successCount evs + 1
  | .reset :: evs | .accept _ _ :: evs | .iload _ _ :: evs | .casFail _ _ :: evs | .rload _ _ :: evs
  | .complete _ _ _ :: evs => successCount evs

/-- How many events of a history are failed swaps. -/
def failureCount : List (Event c) → Nat
  | [] => 0
  | .casFail _ _ :: evs => failureCount evs + 1
  | .reset :: evs | .accept _ _ :: evs | .iload _ _ :: evs | .casOk _ _ _ :: evs | .rload _ _ :: evs
  | .complete _ _ _ :: evs => failureCount evs

/-- The slots of the `INC` words a history accepted, in order. -/
def acceptedIncs : List (Event c) → List Nat
  | [] => []
  | .accept _ w :: evs =>
    match decode c w with
    | .ok (.inc k) => k.toNat :: acceptedIncs evs
    | .ok (.ratio _ _) => acceptedIncs evs
    | .error _ => acceptedIncs evs
  | .reset :: evs | .iload _ _ :: evs | .casOk _ _ _ :: evs | .casFail _ _ :: evs | .rload _ _ :: evs
  | .complete _ _ _ :: evs => acceptedIncs evs

/-- `NEXT` folded over a list of slots, first slot first (41_cas_update.md R98). -/
def nextAll (c : Config) (v : BitVec c.w) (ks : List Nat) : BitVec c.w := ks.foldl (nextValue c) v

/-! ### The spec's steps -/

/-- The step relation of R135's table, each row as its rule writes it. -/
inductive SpecStep : Engine c → Engine c → Prop where
  /-- `ACCEPT(p, w)` of an increment (R89). -/
  | acceptInc (e : Engine c) (p : Fin c.p) (w : CmdWord) (k : SlotIx)
      (idle : (e.port p).ph = .idle) (word : decode c w = .ok (.inc k)) :
      SpecStep e ⟨e.reg, e.ports.set p.val { e.port p with opa := k, ph := .incLoad } p.isLt,
        e.hist ++ [.accept p w]⟩
  /-- `ACCEPT(p, w)` of a ratio query (R107). -/
  | acceptRatio (e : Engine c) (p : Fin c.p) (w : CmdWord) (a b : SlotIx)
      (idle : (e.port p).ph = .idle) (word : decode c w = .ok (.ratio a b)) :
      SpecStep e ⟨e.reg, e.ports.set p.val { e.port p with opa := a, opb := b, ph := .ratioLoad } p.isLt,
        e.hist ++ [.accept p w]⟩
  /-- `ACCEPT(p, w)` of an illegal word (R127). -/
  | acceptIllegal (e : Engine c) (p : Fin c.p) (w : CmdWord) (why : Illegal)
      (idle : (e.port p).ph = .idle) (word : decode c w = .error why) :
      SpecStep e ⟨e.reg, e.ports.set p.val { e.port p with rsp := ⟨.illegal, 0⟩, ph := .done } p.isLt,
        e.hist ++ [.accept p w]⟩
  /-- `ILOAD(p)` (R90). -/
  | iload (e : Engine c) (p : Fin c.p) (phase : (e.port p).ph = .incLoad) :
      SpecStep e ⟨e.reg, e.ports.set p.val { e.port p with cur := e.reg, ph := .incCas } p.isLt,
        e.hist ++ [.iload p e.reg]⟩
  /-- `CAS(p)`, successful (R92). -/
  | casOk (e : Engine c) (p : Fin c.p) (phase : (e.port p).ph = .incCas) (current : e.reg = (e.port p).cur) :
      SpecStep e ⟨nextValue c (e.port p).cur (e.port p).opa.toNat,
        e.ports.set p.val { e.port p with rsp := ⟨.ok, 0⟩, ph := .done } p.isLt,
        e.hist ++ [.casOk p e.reg (nextValue c (e.port p).cur (e.port p).opa.toNat)]⟩
  /-- `CAS(p)`, failing (R93). -/
  | casFail (e : Engine c) (p : Fin c.p) (phase : (e.port p).ph = .incCas) (stale : e.reg ≠ (e.port p).cur) :
      SpecStep e ⟨e.reg, e.ports.set p.val { e.port p with ph := .incLoad } p.isLt,
        e.hist ++ [.casFail p (e.port p).cur]⟩
  /-- `RLOAD(p)` (R108). -/
  | rload (e : Engine c) (p : Fin c.p) (phase : (e.port p).ph = .ratioLoad) :
      SpecStep e ⟨e.reg,
        e.ports.set p.val { e.port p with
          rsp := ⟨.ok, roundFmt c.fmt (ratioQ c e.reg (e.port p).opa.toNat (e.port p).opb.toNat)⟩, ph := .done } p.isLt,
        e.hist ++ [.rload p e.reg]⟩
  /-- `COMPLETE(p)` (R94, R118). -/
  | complete (e : Engine c) (p : Fin c.p) (phase : (e.port p).ph = .done) :
      SpecStep e ⟨e.reg, e.ports.set p.val { e.port p with ph := .idle } p.isLt,
        e.hist ++ [.complete p (e.port p).rsp.status (e.port p).rsp.data]⟩
  /-- `RESET` (R139): the latches it leaves without a value (R140) are whatever `e'` holds. -/
  | reset (e e' : Engine c) (zero : e'.reg = 0) (idle : ∀ p : Fin c.p, (e'.port p).ph = .idle)
      (begun : e'.hist = [.reset]) : SpecStep e e'

/-! ### Runs -/

/-- `n` steps one after the other, the host's `core.run` at this machine's own types. -/
def run : Nat → State → Host.Outcome State Fault Refusal
  | 0, s => .next s
  | n + 1, s =>
    match step s with
    | .next t => run n t
    | .fault r => .fault r
    | .refused r => .refused r

/-- A state the machine can reach from reset in some configuration, whatever words its requesters present and whatever
turns are laid down, at the start or anew between two steps. -/
inductive Reachable : State → Prop where
  | start (c : Config) (v : Env c) : Reachable ⟨c, Engine.atReset c, v⟩
  | outside (c : Config) (e : Engine c) (v v' : Env c) (before : Reachable ⟨c, e, v⟩) : Reachable ⟨c, e, v'⟩
  | next (s t : State) (before : Reachable s) (taken : step s = .next t) : Reachable t

/-- The end of a run (R144): every word any requester will present has been accepted and every port is `IDLE`. -/
def State.Finished (s : State) : Prop :=
  ∀ p : Fin s.cfg.p, (s.hw.port p).ph = .idle ∧ s.env.offered p = none

/-- The workload is finite (R102): every requester ends with the words on its list. -/
def Env.FiniteWorkload (v : Env c) : Prop := ∀ p : Fin c.p, v.supply[p] = .nothing

/-- Weak fairness (70_reset_and_hazards.md R153): in the run from this state, a port whose step stays enabled eventually
takes it. Requesters are under no such duty. -/
def WeaklyFair (c : Config) (e : Engine c) (v : Env c) : Prop :=
  ∀ (n : Nat) (e₁ : Engine c) (v₁ : Env c) (p : Fin c.p), run n ⟨c, e, v⟩ = .next ⟨c, e₁, v₁⟩ →
    (e₁.port p).ph ≠ .idle →
    ∃ (m : Nat) (e₂ : Engine c) (v₂ : Env c), run m ⟨c, e₁, v₁⟩ = .next ⟨c, e₂, v₂⟩ ∧
      ((e₂.port p).ph = .idle ∨ (drawTurn e₂ v₂).1 = some (.port p))

/-- The command port `p` holds ends in the run from this state: the port delivers its response, or a reset drops it
(R94, R118, R140). -/
def CommandEnds (c : Config) (e : Engine c) (v : Env c) (p : Fin c.p) : Prop :=
  ∃ (n : Nat) (e' : Engine c) (v' : Env c), run n ⟨c, e, v⟩ = .next ⟨c, e', v'⟩ ∧ (e'.port p).ph = .idle ∧
    (e'.hist = [.reset] ∨ ∃ st d, e'.hist.getLast? = some (.complete p st d))

/-- A bound on the steps the command of a port can still take, counting two for each failed swap that another port's
success can cause (R100, R152). -/
def portWork (reg : BitVec c.w) (x : Port c) : Nat :=
  match x.ph with
  | .idle => 0
  | .incLoad => 3 + 2 * (c.p - 1)
  | .incCas => if x.cur = reg then 2 + 2 * (c.p - 1) else 4 + 2 * (c.p - 1)
  | .ratioLoad => 2
  | .done => 1

/-- A bound on the steps a finite workload still takes once no round of turns is laid down: the laid-down turns, the
commands in flight, the words waiting. -/
def State.workBound (s : State) : Nat :=
  s.env.sched.length +
  ((List.finRange s.cfg.p).map (fun p =>
    portWork s.hw.reg (s.hw.port p) + (4 + 2 * (s.cfg.p - 1)) * s.env.inbox[p].length)).sum

/-! ### Live latches -/

/-- A port with every latch its phase does not read set to zero (10_state.md R29). -/
def Port.scrub (x : Port c) : Port c :=
  match x.ph with
  | .idle => { Port.atReset c with ph := .idle }
  | .incLoad => { Port.atReset c with ph := .incLoad, opa := x.opa }
  | .incCas => { Port.atReset c with ph := .incCas, opa := x.opa, cur := x.cur }
  | .ratioLoad => { Port.atReset c with ph := .ratioLoad, opa := x.opa, opb := x.opb }
  | .done => { Port.atReset c with ph := .done, rsp := x.rsp }

/-- Two engines that differ at most in latches no rule may read. -/
def Engine.Agrees (e f : Engine c) : Prop :=
  e.reg = f.reg ∧ e.hist = f.hist ∧ ∀ p : Fin c.p, (e.port p).scrub = (f.port p).scrub

end Sys2Proof.Machine
end

