-- ==== Sys2Proof/Certificates/Slice0/Obligations.lean ====
section
/-! DEFINITION. The statements about the model, each from a numbered rule of spec/. A state is written `⟨c, e, v⟩`:
configuration, engine, surroundings; a statement for all `c`, `e` and `v` is one for all states. -/

open Sys2Proof Sys2Proof.Machine

/-! ### Encoding (30_encoding.md) -/

/-- R61: `decode(encode(i)) = i` for every legal command, in every configuration. -/
def Obligations.DecodeInvertsEncode : Prop :=
  ∀ (c : Config) (i : Instr), i.wf c = true → decode c (encode i) = .ok i

/-- R61: `encode(decode(w)) = w` for every word that is not illegal, and its slots exist; so no two words decode to one
command. -/
def Obligations.EncodeInvertsDecode : Prop :=
  ∀ (c : Config) (w : CmdWord) (i : Instr), decode c w = .ok i → encode i = w ∧ i.wf c = true

/-- R61: the number of legal words is `N + N × N`. -/
def Obligations.LegalWordsAreCounted : Prop :=
  ∀ c : Config, (List.range 65536).countP (fun x => (decode c (BitVec.ofNat 16 x)).isOk) = c.n + c.n * c.n

/-- R60: a word is illegal exactly by the clauses (a) to (d), and an idle port answers one with the response
`(ILLEGAL, 0)` and leaves `REG` alone. -/
def Obligations.IllegalWordsAreExactlyThese : Prop :=
  (∀ (c : Config) (w : CmdWord), (∃ why, decode c w = .error why) ↔
    ((opField w ≠ 0x1#4 ∧ opField w ≠ 0x2#4) ∨ (opField w = 0x1#4 ∧ bField w ≠ 0#6) ∨
     (opField w = 0x1#4 ∧ c.n ≤ (aField w).toNat) ∨
     (opField w = 0x2#4 ∧ (c.n ≤ (aField w).toNat ∨ c.n ≤ (bField w).toNat)))) ∧
  (∀ (c : Config) (e : Engine c) (v v' : Env c) (p : Fin c.p) (w : CmdWord) (why : Illegal),
    drawTurn e v = (some (.requester p), v') → (e.port p).ph = .idle → v'.offered p = some w →
    decode c w = .error why →
    ∃ (e' : Engine c) (v'' : Env c), step ⟨c, e, v⟩ = .next ⟨c, e', v''⟩ ∧ e'.reg = e.reg ∧
      (e'.port p).rsp = ⟨.illegal, 0⟩ ∧ (e'.port p).ph = .done)

/-- R58, R59, R61: words the spec writes out decode to the commands it writes beside them. A sanity statement. -/
def Obligations.SpecWordsDecode : Prop :=
  let c := Config.atReset
  decode c 0x1000#16 = .ok (.inc 0) ∧ decode c 0x1040#16 = .ok (.inc 1) ∧ decode c 0x1080#16 = .ok (.inc 2) ∧
  decode c 0x10C0#16 = .ok (.inc 3) ∧ decode c 0x2001#16 = .ok (.ratio 0 1) ∧ decode c 0x2040#16 = .ok (.ratio 1 0) ∧
  decode c 0x2000#16 = .ok (.ratio 0 0) ∧ decode c 0x2083#16 = .ok (.ratio 2 3) ∧ decode c 0x20C1#16 = .ok (.ratio 3 1)

/-- R22, R23, R24, R25: `UNIT[k]` is one at `OFF[k]`, `SENT_MASK` is exactly the union of the slots' sentinel bits,
`KEEP_MASK` its complement in `W` bits, and the constants of the shipped instances are those the spec lists. -/
def Obligations.MasksAreTheUnionOfTheSlots : Prop :=
  (∀ (c : Config) (k i : Nat), k < c.n → i < c.w → ((unit c k).getLsbD i = true ↔ i = k * c.s)) ∧
  (∀ (c : Config) (i : Nat), (sentMask c).getLsbD i = true ↔ ∃ k, k < c.n ∧ i = k * c.s + c.s - 1) ∧
  (∀ (c : Config) (i : Nat), i < c.w → (keepMask c).getLsbD i = !(sentMask c).getLsbD i) ∧
  ((sentMask Config.shipped32).toNat = 0x80008000 ∧ (keepMask Config.shipped32).toNat = 0x7FFF7FFF ∧
    (unit Config.shipped32 0).toNat = 0x00000001 ∧ (unit Config.shipped32 1).toNat = 0x00010000 ∧
    usable Config.shipped32 = 15 ∧ vmax Config.shipped32 = 0x7FFF ∧
    (sentMask Config.shipped64).toNat = 0x8000800080008000 ∧ (keepMask Config.shipped64).toNat = 0x7FFF7FFF7FFF7FFF ∧
    (unit Config.shipped64 0).toNat = 0x0000000000000001 ∧ (unit Config.shipped64 1).toNat = 0x0000000000010000 ∧
    (unit Config.shipped64 2).toNat = 0x0000000100000000 ∧ (unit Config.shipped64 3).toNat = 0x0001000000000000 ∧
    usable Config.shipped64 = 15 ∧ vmax Config.shipped64 = 0x7FFF)

/-! ### Compute next value (40_compute_next.md) -/

/-- R74: on a well-formed value the sum does not wrap, nothing outside slot `k` changes, and slot `k` becomes its value
plus one as an `S`-bit number. -/
def Obligations.SumStaysInsideItsSlot : Prop :=
  ∀ (c : Config) (v : BitVec c.w) (k : Nat), k < c.n → WF c v = true →
    v.toNat + (unit c k).toNat < 2 ^ c.w ∧
    (sum c v k).toNat = v.toNat + (unit c k).toNat ∧
    (∀ i, i < off c k ∨ off c k + c.s ≤ i → (sum c v k).getLsbD i = v.getLsbD i) ∧
    (slot c (sum c v k) k).toNat = value c v k + 1

/-- R75: on a well-formed value the overflow fires exactly when slot `k` is at `VMAX`; then the slot of the sum is
`2^(S−1)` and every other sentinel is zero; otherwise no sentinel is set. -/
def Obligations.OverflowFiresExactlyAtVmax : Prop :=
  ∀ (c : Config) (v : BitVec c.w) (k : Nat), k < c.n → WF c v = true →
    (ovf c v k = true ↔ value c v k = vmax c) ∧
    (value c v k = vmax c →
      (slot c (sum c v k) k).toNat = 2 ^ (c.s - 1) ∧ sent c (sum c v k) k = true ∧ value c (sum c v k) k = 0 ∧
      ∀ j, j < c.n → j ≠ k → sent c (sum c v k) j = false) ∧
    (value c v k ≠ vmax c → ∀ j, j < c.n → sent c (sum c v k) j = false)

/-- R76: the lane law of the normal case. -/
def Obligations.IncrementAddsOneToItsSlot : Prop :=
  ∀ (c : Config) (v : BitVec c.w) (k : Nat), k < c.n → WF c v = true → value c v k < vmax c →
    value c (nextValue c v k) k = value c v k + 1 ∧
    ∀ j, j < c.n → j ≠ k → value c (nextValue c v k) j = value c v j

/-- R77: the lane law of the decay. -/
def Obligations.DecayHalvesEverySlot : Prop :=
  ∀ (c : Config) (v : BitVec c.w) (k : Nat), k < c.n → WF c v = true → value c v k = vmax c →
    value c (nextValue c v k) k = 2 ^ (c.s - 2) ∧ 2 ^ (c.s - 2) = (vmax c + 1) / 2 ∧
    ∀ j, j < c.n → j ≠ k → value c (nextValue c v k) j = value c v j / 2

/-- R78 (90_conflicts.md C2): halving every slot first and applying the increment after gives the same slots. -/
def Obligations.DecayIsHalveThenIncrement : Prop :=
  ∀ (c : Config) (v : BitVec c.w) (k : Nat), k < c.n → WF c v = true → value c v k = vmax c →
    ∀ j, j < c.n → value c (nextValue c v k) j = value c v j / 2 + (if j = k then 1 else 0)

/-- R79: whatever its input, well formed or not, `NEXT` leaves every sentinel bit zero. -/
def Obligations.NextClearsEverySentinel : Prop :=
  ∀ (c : Config) (v : BitVec c.w) (k : Nat), I1 c (nextValue c v k) = true

/-- R80: slack bits stay zero, and with R79 `NEXT` keeps values well formed. -/
def Obligations.NextKeepsWellFormed : Prop :=
  ∀ (c : Config) (v : BitVec c.w) (k : Nat), k < c.n → WF c v = true →
    slackZero c (nextValue c v k) = true ∧ WF c (nextValue c v k) = true

/-- R81: an arithmetic shift in the decay gives the same next value on well-formed input. -/
def Obligations.ArithmeticShiftAgrees : Prop :=
  ∀ (c : Config) (v : BitVec c.w) (k : Nat), k < c.n → WF c v = true →
    nextValue c v k =
      if ovf c v k then (sum c v k).sshiftRight 1 &&& keepMask c else sum c v k

/-- R82: slot positions are unobservable. Two well-formed values whose slots are a permutation of each other stay so under
`NEXT` of corresponding slots, and give the same ratios. -/
def Obligations.SlotPositionIsUnobservable : Prop :=
  ∀ (c : Config) (v u : BitVec c.w) (perm : Nat → Nat),
    (∀ j, j < c.n → perm j < c.n) → (∀ i j, i < c.n → j < c.n → perm i = perm j → i = j) →
    WF c v = true → WF c u = true → (∀ j, j < c.n → value c u (perm j) = value c v j) →
    (∀ k j, k < c.n → j < c.n → value c (nextValue c u (perm k)) (perm j) = value c (nextValue c v k) j) ∧
    (∀ a b, a < c.n → b < c.n → ratioQ c u (perm a) (perm b) = ratioQ c v a b)

/-- R83: after a decay the slot that caused it is strictly the largest. -/
def Obligations.DecayingSlotIsLargest : Prop :=
  ∀ (c : Config) (v : BitVec c.w) (k j : Nat), k < c.n → WF c v = true → value c v k = vmax c → j < c.n → j ≠ k →
    value c (nextValue c v k) j ≤ 2 ^ (c.s - 2) - 1 ∧
    value c (nextValue c v k) j < value c (nextValue c v k) k ∧
    (value c v j ≤ 1 → value c (nextValue c v k) j = 0)

/-- R84: no fixed point of `NEXT` among well-formed values when `S ≥ 3`; when `S = 2` exactly `UNIT[k]`. -/
def Obligations.FixedPointsOfNext : Prop :=
  ∀ (c : Config) (v : BitVec c.w) (k : Nat), k < c.n → WF c v = true →
    (3 ≤ c.s → nextValue c v k ≠ v) ∧ (c.s = 2 → (nextValue c v k = v ↔ v = unit c k))

/-- R87: every well-formed value is reached from zero by increments of existing slots alone, in an order in which none
of them decays. -/
def Obligations.WellFormedValuesAreReachable : Prop :=
  ∀ (c : Config) (v : BitVec c.w), WF c v = true →
    ∃ ks : List Nat, (∀ k ∈ ks, k < c.n) ∧ nextAll c 0 ks = v ∧
      ∀ pre k post, ks = pre ++ k :: post → ovf c (nextAll c 0 pre) k = false

/-- R120: as long as no slot is counted more than `VMAX` times, a slot's value is its count, and the ratio is the
quotient of the counts; and a slot never counted stays zero across any number of decays. -/
def Obligations.ValuesAreCountsBeforeDecay : Prop :=
  ∀ (c : Config) (ks : List Nat), (∀ k ∈ ks, k < c.n) →
    ((∀ k, k < c.n → ks.count k ≤ vmax c) →
      ∀ x, x < c.n → value c (nextAll c 0 ks) x = ks.count x ∧
        ∀ y, y < c.n → 1 ≤ ks.count y →
          ratioQ c (nextAll c 0 ks) x y = (ks.count x : Rat) / (ks.count y : Rat)) ∧
    (∀ y, y < c.n → y ∉ ks → value c (nextAll c 0 ks) y = 0 ∧ ∀ x, ratioQ c (nextAll c 0 ks) x y = 0)

/-! ### INC (41_cas_update.md) -/

/-- R89: an idle port whose requester presents a word of `INC k` latches `k` and goes to `INC_LOAD`, recording the
word; nothing else changes. A port that is not idle accepts nothing and the word waits. -/
def Obligations.IncIsAccepted : Prop :=
  (∀ (c : Config) (e : Engine c) (v v' : Env c) (p : Fin c.p) (w : CmdWord) (k : SlotIx),
    drawTurn e v = (some (.requester p), v') → (e.port p).ph = .idle → v'.offered p = some w →
    decode c w = .ok (.inc k) →
    step ⟨c, e, v⟩ = .next ⟨c,
      ⟨e.reg, e.ports.set p.val { e.port p with opa := k, ph := .incLoad } p.isLt, e.hist ++ [.accept p w]⟩,
      { v'.taken p with act := p }⟩) ∧
  (∀ (c : Config) (e : Engine c) (v v' : Env c) (p : Fin c.p),
    drawTurn e v = (some (.requester p), v') → (e.port p).ph ≠ .idle →
    step ⟨c, e, v⟩ = .next ⟨c, e, { v' with act := p }⟩)

/-- R90: in `INC_LOAD` the command reads all of `REG` into `CUR` and goes to `INC_CAS`; nothing else changes. -/
def Obligations.IncLoadsTheRegister : Prop :=
  ∀ (c : Config) (e : Engine c) (v : Env c) (k : SlotIx),
    (e.port v.act).ph = .incLoad → (e.port v.act).opa = k →
    exec (.inc k) ⟨c, e, v⟩ = .next ⟨c,
      ⟨e.reg, e.ports.set v.act.val { e.port v.act with cur := e.reg, ph := .incCas } v.act.isLt,
        e.hist ++ [.iload v.act e.reg]⟩, v⟩

/-- R92: in `INC_CAS` with `REG = CUR` the command replaces `REG` by `NEXT` of it, answers `(OK, 0)` and is done; nothing
else changes. This is where `INC` completes its effect. -/
def Obligations.IncSwapsWhenCurrent : Prop :=
  ∀ (c : Config) (e : Engine c) (v : Env c) (k : SlotIx),
    (e.port v.act).ph = .incCas → (e.port v.act).opa = k → e.reg = (e.port v.act).cur →
    exec (.inc k) ⟨c, e, v⟩ = .next ⟨c,
      ⟨nextValue c e.reg k.toNat, e.ports.set v.act.val { e.port v.act with rsp := ⟨.ok, 0⟩, ph := .done } v.act.isLt,
        e.hist ++ [.casOk v.act e.reg (nextValue c e.reg k.toNat)]⟩, v⟩

/-- R93: in `INC_CAS` with `REG ≠ CUR` the command goes back to `INC_LOAD`; `REG`, the latches and all else stay. -/
def Obligations.IncRetriesWhenStale : Prop :=
  ∀ (c : Config) (e : Engine c) (v : Env c) (k : SlotIx),
    (e.port v.act).ph = .incCas → (e.port v.act).opa = k → e.reg ≠ (e.port v.act).cur →
    exec (.inc k) ⟨c, e, v⟩ = .next ⟨c,
      ⟨e.reg, e.ports.set v.act.val { e.port v.act with ph := .incLoad } v.act.isLt,
        e.hist ++ [.casFail v.act (e.port v.act).cur]⟩, v⟩

/-- R94, R118: in `DONE` a turn of the port delivers its response and makes it idle; nothing else changes. So does the
meaning of either command at a port that is done, which is the model's choice (log entry 9). -/
def Obligations.DonePortCompletes : Prop :=
  (∀ (c : Config) (e : Engine c) (v v' : Env c) (p : Fin c.p),
    drawTurn e v = (some (.port p), v') → (e.port p).ph = .done →
    step ⟨c, e, v⟩ = .next ⟨c,
      ⟨e.reg, e.ports.set p.val { e.port p with ph := .idle } p.isLt,
        e.hist ++ [.complete p (e.port p).rsp.status (e.port p).rsp.data]⟩, { v' with act := p }⟩) ∧
  (∀ (c : Config) (e : Engine c) (v : Env c) (i : Instr), (e.port v.act).ph = .done →
    exec i ⟨c, e, v⟩ = .next ⟨c,
      ⟨e.reg, e.ports.set v.act.val { e.port v.act with ph := .idle } v.act.isLt,
        e.hist ++ [.complete v.act (e.port v.act).rsp.status (e.port v.act).rsp.data]⟩, v⟩)

/-- R95, R97, R152: an `INC k` whose port takes the next four turns replaces `REG` by `NEXT(REG, k)` and is answered
`(OK, 0)`; every other port stays as it was. -/
def Obligations.IncAloneTakesFourSteps : Prop :=
  ∀ (c : Config) (e : Engine c) (v : Env c) (p : Fin c.p) (k : SlotIx) (rest : List (Turn c)),
    k.toNat < c.n → (e.port p).ph = .idle → v.offered p = some (encode (.inc k)) →
    v.sched = .requester p :: .port p :: .port p :: .port p :: rest →
    ∃ e' : Engine c, run 4 ⟨c, e, v⟩ = .next ⟨c, e', { v.taken p with act := p, sched := rest }⟩ ∧
      e'.reg = nextValue c e.reg k.toNat ∧ (e'.port p).ph = .idle ∧
      e'.hist = e.hist ++ [.accept p (encode (.inc k)), .iload p e.reg, .casOk p e.reg (nextValue c e.reg k.toNat),
        .complete p .ok 0] ∧
      ∀ q, q ≠ p → e'.port q = e.port q

/-- The frame of `INC`: surroundings and every other port unchanged, `OPB` unchanged, `OPA` changed only on acceptance,
`CUR` only by the load, `RSP` only by a successful swap or the rejection of an index `≥ N`, `REG` only by a successful
swap, and the history only extended (R89 to R94). That `exec` raises the exception for an index `≥ N` is the model's choice
(log entry 9). -/
def Obligations.IncFrame : Prop :=
  ∀ (c : Config) (e e' : Engine c) (v v' : Env c) (k : SlotIx),
    exec (.inc k) ⟨c, e, v⟩ = .next ⟨c, e', v'⟩ →
    v' = v ∧ (∀ q, q ≠ v.act → e'.port q = e.port q) ∧ (e'.port v.act).opb = (e.port v.act).opb ∧
    ((e.port v.act).ph ≠ .idle → (e'.port v.act).opa = (e.port v.act).opa) ∧
    ((e.port v.act).ph ≠ .incLoad → (e'.port v.act).cur = (e.port v.act).cur) ∧
    (((e.port v.act).ph = .incCas ∧ (e.port v.act).opa = k ∧ e.reg = (e.port v.act).cur) ∨
      (e'.reg = e.reg ∧
        (((e.port v.act).ph = .idle ∧ c.n ≤ k.toNat) ∨ (e'.port v.act).rsp = (e.port v.act).rsp))) ∧
    e.hist <+: e'.hist

/-- R100: in any explained history, a failed swap was preceded, since the load it relies on, by a successful swap of
another port. -/
def Obligations.EveryFailureHasAWinner : Prop :=
  ∀ (c : Config) (e : Engine c) (p : Fin c.p) (x y : BitVec c.w) (before between after : List (Event c)),
    e.Explained → e.hist = before ++ (.iload p x :: between) ++ (.casFail p y :: after) →
    (∀ z, Event.iload p z ∉ between) →
    x = y ∧ ∃ (q : Fin c.p) (old new : BitVec c.w), q ≠ p ∧ Event.casOk q old new ∈ between

/-- R100: in any explained history, failed swaps are at most `P − 1` times the successful ones. -/
def Obligations.FailuresAreBoundedBySuccesses : Prop :=
  ∀ (c : Config) (e : Engine c), e.Explained → failureCount e.hist ≤ (c.p - 1) * successCount e.hist

/-- R103: of two ports about to swap with the same current value the first to step succeeds, and the other then fails
unless the value written equals the old one. -/
def Obligations.OfTwoEqualSwapsTheFirstWins : Prop :=
  ∀ (c : Config) (e : Engine c) (v : Env c) (p q : Fin c.p) (rest : List (Turn c)), p ≠ q →
    (e.port p).ph = .incCas → (e.port p).cur = e.reg → (e.port q).ph = .incCas → (e.port q).cur = e.reg →
    v.sched = .port p :: .port q :: rest →
    ∃ (e' : Engine c) (v' : Env c), run 2 ⟨c, e, v⟩ = .next ⟨c, e', v'⟩ ∧
      (e'.port p).ph = .done ∧ (e'.port p).rsp = ⟨.ok, 0⟩ ∧
      (nextValue c e.reg (e.port p).opa.toNat ≠ e.reg →
        (e'.port q).ph = .incLoad ∧ e'.reg = nextValue c e.reg (e.port p).opa.toNat) ∧
      (nextValue c e.reg (e.port p).opa.toNat = e.reg →
        (e'.port q).ph = .done ∧ e'.reg = nextValue c e.reg (e.port q).opa.toNat)

/-! ### RATIO (42_ratio_query.md) -/

/-- R107: an idle port whose requester presents a word of `RATIO a, b` latches both slots and goes to `RATIO_LOAD`;
nothing else changes. -/
def Obligations.RatioIsAccepted : Prop :=
  ∀ (c : Config) (e : Engine c) (v v' : Env c) (p : Fin c.p) (w : CmdWord) (a b : SlotIx),
    drawTurn e v = (some (.requester p), v') → (e.port p).ph = .idle → v'.offered p = some w →
    decode c w = .ok (.ratio a b) →
    step ⟨c, e, v⟩ = .next ⟨c,
      ⟨e.reg, e.ports.set p.val { e.port p with opa := a, opb := b, ph := .ratioLoad } p.isLt,
        e.hist ++ [.accept p w]⟩,
      { v'.taken p with act := p }⟩

/-- R108: in `RATIO_LOAD` the command reads `REG` once, answers `(OK, round_FMT(RATIOQ(REG, a, b)))` and is done; nothing
else changes. This is where `RATIO` completes its effect. -/
def Obligations.RatioAnswersFromOneLoad : Prop :=
  ∀ (c : Config) (e : Engine c) (v : Env c) (a b : SlotIx),
    (e.port v.act).ph = .ratioLoad → (e.port v.act).opa = a → (e.port v.act).opb = b →
    exec (.ratio a b) ⟨c, e, v⟩ = .next ⟨c,
      ⟨e.reg, e.ports.set v.act.val { e.port v.act with
          rsp := ⟨.ok, roundFmt c.fmt (ratioQ c e.reg a.toNat b.toNat)⟩, ph := .done } v.act.isLt,
        e.hist ++ [.rload v.act e.reg]⟩, v⟩

/-- R109, R110: the two operands are the `S − 1` bit fields of the loaded value, and the result is their exact quotient. -/
def Obligations.RatioIsTheExactQuotient : Prop :=
  ∀ (c : Config) (v : BitVec c.w) (a b : Nat), a < c.n → b < c.n →
    value c v a = v.toNat / 2 ^ off c a % 2 ^ (c.s - 1) ∧ value c v a ≤ vmax c ∧
    (value c v b = 0 → ratioQ c v a b = 0) ∧
    (value c v b ≠ 0 → ratioQ c v a b = (value c v a : Rat) / (value c v b : Rat))

/-- R111, R125: a zero denominator is answered `(OK, +0)`, whatever the numerator. -/
def Obligations.ZeroDenominatorAnswersZero : Prop :=
  ∀ (c : Config) (e : Engine c) (v : Env c) (a b : SlotIx),
    (e.port v.act).ph = .ratioLoad → (e.port v.act).opa = a → (e.port v.act).opb = b → value c e.reg b.toNat = 0 →
    ∃ e' : Engine c, exec (.ratio a b) ⟨c, e, v⟩ = .next ⟨c, e', v⟩ ∧
      (e'.port v.act).rsp = ⟨.ok, plusZero c.fmt⟩ ∧ (e'.port v.act).ph = .done ∧ e'.reg = e.reg

/-- R117: `RATIO a, a` is legal and gives 1 when the slot is not zero and 0 when it is. -/
def Obligations.EqualOperandsGiveOneOrZero : Prop :=
  ∀ (c : Config) (v : BitVec c.w) (a : SlotIx), a.toNat < c.n →
    decode c (encode (.ratio a a)) = .ok (.ratio a a) ∧
    (value c v a.toNat ≠ 0 → ratioQ c v a.toNat a.toNat = 1) ∧
    (value c v a.toNat = 0 → ratioQ c v a.toNat a.toNat = 0)

/-- R114: the delivered result is `+0` exactly when a slot is zero, and otherwise a finite positive number no smaller than
the smallest and no larger than the largest ratio, as rounded; never negative, infinite or not a number. -/
def Obligations.RatioResultIsZeroOrFinitePositive : Prop :=
  ∀ (c : Config) (v : BitVec c.w) (a b : Nat),
    (ratioData c v a b = plusZero c.fmt ↔ value c v a = 0 ∨ value c v b = 0) ∧
    (value c v a ≠ 0 → value c v b ≠ 0 → isPositiveFinite c.fmt (ratioData c v a b) = true ∧
      floatValue c.fmt (roundFmt c.fmt (mkRat 1 (vmax c))) ≤ floatValue c.fmt (ratioData c v a b) ∧
      floatValue c.fmt (ratioData c v a b) ≤ floatValue c.fmt (roundFmt c.fmt (vmax c)))

/-- R113: in the default format the fields of a result are the biased exponent of the rational and its significand
rounded to nearest, ties to even, a carry moved into the exponent. The range keeps the result normal, as R113 says of the
engine's. -/
def Obligations.RoundsToNearestEvenBinary64 : Prop :=
  ∀ (q : Rat), (1 : Rat) / 2 ^ 1022 ≤ q → q ≤ 2 ^ 1022 →
    ∃ (e : Int) (m : Nat),
      (2 : Rat) ^ e ≤ q ∧ q < (2 : Rat) ^ (e + 1) ∧
      |q * (2 : Rat) ^ (52 - e) - m| ≤ 1 / 2 ∧
      (|q * (2 : Rat) ^ (52 - e) - m| = 1 / 2 → m % 2 = 0) ∧
      signBit .binary64 (roundFmt .binary64 q) = false ∧
      (m < 2 ^ 53 → (expField .binary64 (roundFmt .binary64 q) : Int) = e + 1023 ∧
        fracField .binary64 (roundFmt .binary64 q) = m - 2 ^ 52) ∧
      (m = 2 ^ 53 → (expField .binary64 (roundFmt .binary64 q) : Int) = e + 1 + 1023 ∧
        fracField .binary64 (roundFmt .binary64 q) = 0) ∧ m ≤ 2 ^ 53

/-- R112, R9: FLOAT_FMT ranges over exactly the formats that meet R112 (a) to (c), read over the rationals the engine can
produce (log entry 8). Every one of a configuration does: `+0` stands for zero, and is all zeros in a binary layout; a
positive rational in range becomes a positive finite pattern other than `+0`; the order is kept; a value of the format is
rounded to itself. And any rounding to patterns of some width that meets them is one of them, pattern by pattern, on every
ratio of two slots. -/
def Obligations.FloatFormatsAreThoseOfR112 : Prop :=
  (∀ b : BinaryFmt, plusZero (.binary b) = 0) ∧
  (∀ c : Config, floatValue c.fmt (plusZero c.fmt) = 0 ∧
    (∀ q : Rat, mkRat 1 (vmax c) ≤ q → q ≤ vmax c →
      isPositiveFinite c.fmt (roundFmt c.fmt q) = true ∧ 0 < floatValue c.fmt (roundFmt c.fmt q) ∧
      roundFmt c.fmt q ≠ plusZero c.fmt) ∧
    (∀ q r : Rat, mkRat 1 (vmax c) ≤ q → q ≤ r → r ≤ vmax c →
      floatValue c.fmt (roundFmt c.fmt q) ≤ floatValue c.fmt (roundFmt c.fmt r)) ∧
    (∀ d : BitVec c.fmt.width, isPositiveFinite c.fmt d = true →
      floatValue c.fmt (roundFmt c.fmt (floatValue c.fmt d)) = floatValue c.fmt d)) ∧
  (∀ (s w : Nat) (round : Rat → BitVec w) (read : BitVec w → Rat), 2 ≤ s →
    read (round 0) = 0 →
    (∀ q : Rat, mkRat 1 (2 ^ (s - 1) - 1) ≤ q → q ≤ (2 ^ (s - 1) - 1 : Nat) → 0 < read (round q)) →
    (∀ q r : Rat, 0 ≤ q → q ≤ r → read (round q) ≤ read (round r)) →
    (∀ q : Rat, 0 ≤ q → read (round (read (round q))) = read (round q)) →
    ∃ f : FloatFmt, f.width = w ∧ f.covers s = true ∧ (plusZero f).toNat = (round 0).toNat ∧
      ∀ a b : Nat, 1 ≤ a → a ≤ 2 ^ (s - 1) - 1 → 1 ≤ b → b ≤ 2 ^ (s - 1) - 1 →
        (roundFmt f (mkRat a b)).toNat = (round (mkRat a b)).toNat)

/-- R118, R123, R152: a `RATIO a, b` whose port takes the next three turns is answered from the one value of `REG`, which
it leaves alone. -/
def Obligations.RatioTakesThreeSteps : Prop :=
  ∀ (c : Config) (e : Engine c) (v : Env c) (p : Fin c.p) (a b : SlotIx) (rest : List (Turn c)),
    a.toNat < c.n → b.toNat < c.n → (e.port p).ph = .idle → v.offered p = some (encode (.ratio a b)) →
    v.sched = .requester p :: .port p :: .port p :: rest →
    ∃ e' : Engine c, run 3 ⟨c, e, v⟩ = .next ⟨c, e', { v.taken p with act := p, sched := rest }⟩ ∧
      e'.reg = e.reg ∧ (e'.port p).ph = .idle ∧
      e'.hist = e.hist ++ [.accept p (encode (.ratio a b)), .rload p e.reg,
        .complete p .ok (ratioData c e.reg a.toNat b.toNat)] ∧
      ∀ q, q ≠ p → e'.port q = e.port q

/-- R119: right after reset, in every configuration, every `RATIO` is answered `(OK, +0)`. -/
def Obligations.RatioAfterResetIsZero : Prop :=
  ∀ (c : Config) (v : Env c) (p : Fin c.p) (a b : SlotIx) (rest : List (Turn c)),
    a.toNat < c.n → b.toNat < c.n → v.offered p = some (encode (.ratio a b)) →
    v.sched = .requester p :: .port p :: .port p :: rest →
    ∃ (e' : Engine c) (v' : Env c),
      run 3 ⟨c, Engine.atReset c, v⟩ = .next ⟨c, e', v'⟩ ∧ e'.reg = 0 ∧
      e'.hist = [.reset, .accept p (encode (.ratio a b)), .rload p 0, .complete p .ok (plusZero c.fmt)]

/-- R115, the frame of `RATIO`: `REG`, the surroundings, every other port and `CUR` unchanged; the operand latches
changed only on acceptance, `RSP` only by the load or the rejection of an index `≥ N`; the history only extended. That `exec`
raises the exception for an index `≥ N` is the model's choice (log entry 9). -/
def Obligations.RatioFrame : Prop :=
  ∀ (c : Config) (e e' : Engine c) (v v' : Env c) (a b : SlotIx),
    exec (.ratio a b) ⟨c, e, v⟩ = .next ⟨c, e', v'⟩ →
    v' = v ∧ e'.reg = e.reg ∧ (∀ q, q ≠ v.act → e'.port q = e.port q) ∧
    (e'.port v.act).cur = (e.port v.act).cur ∧
    ((e.port v.act).ph ≠ .idle →
      (e'.port v.act).opa = (e.port v.act).opa ∧ (e'.port v.act).opb = (e.port v.act).opb) ∧
    (((e.port v.act).ph = .ratioLoad ∧ (e.port v.act).opa = a ∧ (e.port v.act).opb = b) ∨
      ((e.port v.act).ph = .idle ∧ (c.n ≤ a.toNat ∨ c.n ≤ b.toNat)) ∨
      (e'.port v.act).rsp = (e.port v.act).rsp) ∧
    e.hist <+: e'.hist

/-! ### The exception, reset, the machine (60_exceptions.md, 70_reset_and_hazards.md, 20_memory.md) -/

/-- R127: an illegal word presented to an idle port is answered `(ILLEGAL, 0)` with nothing else changed but the port's
phase and the history, and after `COMPLETE` the port is idle again. -/
def Obligations.IllegalWordRaisesIllegalCommand : Prop :=
  ∀ (c : Config) (e : Engine c) (v : Env c) (p : Fin c.p) (w : CmdWord) (why : Illegal) (rest : List (Turn c)),
    (e.port p).ph = .idle → v.offered p = some w → decode c w = .error why →
    v.sched = .requester p :: .port p :: rest →
    step ⟨c, e, v⟩ = .next ⟨c,
      ⟨e.reg, e.ports.set p.val { e.port p with rsp := ⟨.illegal, 0⟩, ph := .done } p.isLt,
        e.hist ++ [.accept p w]⟩,
      { v.taken p with act := p, sched := .port p :: rest }⟩ ∧
    ∃ (e' : Engine c) (v' : Env c), run 2 ⟨c, e, v⟩ = .next ⟨c, e', v'⟩ ∧
      e'.reg = e.reg ∧ (e'.port p).ph = .idle ∧
      e'.hist = e.hist ++ [.accept p w, .complete p .illegal 0] ∧ ∀ q, q ≠ p → e'.port q = e.port q

/-- R149, R60: a command executed at a port that holds another one is not accepted and changes nothing, and one with an
index `≥ N` at an idle port raises `IllegalCommand` for its word. No step brings either about; that `exec` answers so is the
model's choice (log entry 9). -/
def Obligations.ForeignOrIllFormedCommandHasNoEffect : Prop :=
  (∀ (c : Config) (e : Engine c) (v : Env c) (k : SlotIx),
    (e.port v.act).ph = .ratioLoad ∨
      (((e.port v.act).ph = .incLoad ∨ (e.port v.act).ph = .incCas) ∧ (e.port v.act).opa ≠ k) →
    exec (.inc k) ⟨c, e, v⟩ = .next ⟨c, e, v⟩) ∧
  (∀ (c : Config) (e : Engine c) (v : Env c) (a b : SlotIx),
    ((e.port v.act).ph = .incLoad ∨ (e.port v.act).ph = .incCas) ∨
      ((e.port v.act).ph = .ratioLoad ∧ ((e.port v.act).opa ≠ a ∨ (e.port v.act).opb ≠ b)) →
    exec (.ratio a b) ⟨c, e, v⟩ = .next ⟨c, e, v⟩) ∧
  (∀ (c : Config) (e : Engine c) (v : Env c) (i : Instr), (e.port v.act).ph = .idle → i.wf c = false →
    exec i ⟨c, e, v⟩ = .next ⟨c,
      ⟨e.reg, e.ports.set v.act.val { e.port v.act with rsp := ⟨.illegal, 0⟩, ph := .done } v.act.isLt,
        e.hist ++ [.accept v.act (encode i)]⟩, v⟩)

/-- R139, R140: a reset turn, from any state, leaves `REG` zero and well formed, every slot zero, every port idle, `H` the
one event `Reset`, and every ratio zero. -/
def Obligations.ResetClearsTheEngine : Prop :=
  ∀ (c : Config) (e : Engine c) (v v' : Env c), drawTurn e v = (some .reset, v') →
    ∃ e' : Engine c, step ⟨c, e, v⟩ = .next ⟨c, e', v'⟩ ∧ e'.reg = 0 ∧ WF c e'.reg = true ∧ e'.hist = [.reset] ∧
      (∀ p : Fin c.p, (e'.port p).ph = .idle) ∧ (∀ k, value c e'.reg k = 0) ∧
      (∀ a b, ratioData c e'.reg a b = plusZero c.fmt)

/-- R135: a turn laid down is the turn taken, and a laid-down round begins again when it is used up; with none laid down,
the turn taken is an enabled step, and none is taken only when none is enabled; drawing changes nothing but the laid-down
turns and the counter of free values. Which enabled step is taken is a free value (log entry 3). -/
def Obligations.DrawnTurnIsLaidDownOrEnabled : Prop :=
  ∀ (c : Config) (e : Engine c) (v : Env c),
    (drawTurn e v).2.act = v.act ∧ (drawTurn e v).2.inbox = v.inbox ∧ (drawTurn e v).2.supply = v.supply ∧
    (drawTurn e v).2.round = v.round ∧
    (∀ t ts, v.sched = t :: ts ∨ (v.sched = [] ∧ v.round = t :: ts) →
      (drawTurn e v).1 = some t ∧ (drawTurn e v).2.sched = ts) ∧
    (v.sched = [] → v.round = [] → (drawTurn e v).2.sched = [] ∧
      (∀ t, (drawTurn e v).1 = some t →
        (∃ p, t = .port p ∧ (e.port p).ph ≠ .idle) ∨
        (∃ p, t = .requester p ∧ (e.port p).ph = .idle ∧ v.offered p ≠ none)) ∧
      ((drawTurn e v).1 = none ↔ ∀ p : Fin c.p, (e.port p).ph = .idle ∧ v.offered p = none))

/-- R57, R61: a presented word that decodes to a command is executed as that command: the step is `exec` of it, at the
state with the word taken from the requester and the port's turn marked. -/
def Obligations.StepRunsThePresentedWord : Prop :=
  ∀ (c : Config) (e : Engine c) (v v' : Env c) (p : Fin c.p) (w : CmdWord) (i : Instr),
    drawTurn e v = (some (.requester p), v') → (e.port p).ph = .idle → v'.offered p = some w → decode c w = .ok i →
    step ⟨c, e, v⟩ = exec i ⟨c, e, { v'.taken p with act := p }⟩

/-- R28, R135: a turn of a port that holds a command is `exec` of that command at that port, at the state with the port's
turn marked. -/
def Obligations.StepRunsTheHeldCommand : Prop :=
  ∀ (c : Config) (e : Engine c) (v v' : Env c) (p : Fin c.p),
    drawTurn e v = (some (.port p), v') →
    (((e.port p).ph = .incLoad ∨ (e.port p).ph = .incCas) →
      step ⟨c, e, v⟩ = exec (.inc (e.port p).opa) ⟨c, e, { v' with act := p }⟩) ∧
    ((e.port p).ph = .ratioLoad →
      step ⟨c, e, v⟩ = exec (.ratio (e.port p).opa (e.port p).opb) ⟨c, e, { v' with act := p }⟩)

/-- R124, R127, R6: no state makes the machine stop, and no step changes the configuration. That no illegal word stops it is
the first of the two treatments 92_eei_decisions.md D10 admits, the model's reading (log entry 13), and that a turn with
nothing to do passes is the model's choice (log entry 4). -/
def Obligations.NoStepFaultsOrReconfigures : Prop :=
  ∀ s : State, ∃ (e' : Engine s.cfg) (v' : Env s.cfg), step s = .next ⟨s.cfg, e', v'⟩

/-- R37: `REG` is written by a successful swap, with `NEXT` of its value, and by reset, and by nothing else. -/
def Obligations.OnlySwapAndResetWriteTheRegister : Prop :=
  ∀ (c : Config) (e e' : Engine c) (v v' : Env c), step ⟨c, e, v⟩ = .next ⟨c, e', v'⟩ →
    e'.reg = e.reg ∨ ((drawTurn e v).1 = some .reset ∧ e'.reg = 0) ∨
    ∃ p : Fin c.p, (drawTurn e v).1 = some (.port p) ∧ (e.port p).ph = .incCas ∧ (e.port p).cur = e.reg ∧
      e'.reg = nextValue c e.reg (e.port p).opa.toNat

/-- R136, R132: a turn of one port or its requester leaves what every other port holds alone, and the words of every other
requester. -/
def Obligations.PortsDoNotTouchEachOther : Prop :=
  ∀ (c : Config) (e e' : Engine c) (v v' : Env c) (p q : Fin c.p),
    ((drawTurn e v).1 = some (.port p) ∨ (drawTurn e v).1 = some (.requester p)) → q ≠ p →
    step ⟨c, e, v⟩ = .next ⟨c, e', v'⟩ →
    e'.port q = e.port q ∧ v'.inbox[q] = v.inbox[q] ∧ v'.supply[q] = v.supply[q]

/-- R33: an engine after reset is sound, its history explains it, and the machine's reset state is one. -/
def Obligations.ResetIsSoundAndExplained : Prop :=
  (∀ c : Config, (Engine.atReset c).Sound ∧ (Engine.atReset c).Explained) ∧ State.reset.hw.Sound

/-- R18, R29, R87, R114: every step keeps `REG` well formed and every port sound, from every such state. -/
def Obligations.StepKeepsTheEngineSound : Prop :=
  ∀ s s' : State, s.hw.Sound → step s = .next s' → s'.hw.Sound

/-- R44, R49, R97, R98: every step keeps the history an explanation of the state: every load saw the value of the latest
successful swap, every successful swap replaced that value by `NEXT` of it, every failed one expected another value, and
every port's own events are those of its commands in order, with the responses the rules give. -/
def Obligations.StepKeepsTheHistoryExplained : Prop :=
  ∀ s s' : State, s.hw.Sound → s.hw.Explained → step s = .next s' → s'.hw.Explained

/-- R135: a step of the machine is a step of the spec's relation, or changes nothing of the engine; that a turn may pass
is the model's choice (log entry 4). -/
def Obligations.StepIsASpecStep : Prop :=
  ∀ (c : Config) (e e' : Engine c) (v v' : Env c), step ⟨c, e, v⟩ = .next ⟨c, e', v'⟩ → e' = e ∨ SpecStep e e'

/-- R135: every interleaving is admitted, up to latches that no rule reads (the values a reset leaves in them are log entry
2). Every step of the spec's relation, of any agent, is taken by the machine under some words and turns; every finite sequence
of its steps is a run of the machine under words and turns laid down at its start; every endless one is a sequence of machine
steps between which words and turns are laid down. -/
def Obligations.EverySpecStepIsTaken : Prop :=
  (∀ (c : Config) (e e' : Engine c), SpecStep e e' →
    ∃ (v v' : Env c) (f : Engine c), step ⟨c, e, v⟩ = .next ⟨c, f, v'⟩ ∧ f.Agrees e') ∧
  (∀ (c : Config) (n : Nat) (σ : Nat → Engine c), (∀ i, i < n → SpecStep (σ i) (σ (i + 1))) →
    ∃ (v v' : Env c) (f : Engine c), run n ⟨c, σ 0, v⟩ = .next ⟨c, f, v'⟩ ∧ f.Agrees (σ n)) ∧
  (∀ (c : Config) (σ : Nat → Engine c), (∀ i, SpecStep (σ i) (σ (i + 1))) →
    ∃ τ : Nat → Engine c, τ 0 = σ 0 ∧ (∀ i, (τ i).Agrees (σ i)) ∧
      ∀ i, ∃ v v' : Env c, step ⟨c, τ i, v⟩ = .next ⟨c, τ (i + 1), v'⟩)

/-- R29 (93_implementation_defined.md U11): what a latch holds outside the phases that use it makes no difference: two
engines that differ only there step to two such engines, with the same surroundings. So no claim rests on log entry 2. -/
def Obligations.DeadLatchesAreNeverRead : Prop :=
  ∀ (c : Config) (e f e' f' : Engine c) (v v' v'' : Env c), e.Agrees f →
    step ⟨c, e, v⟩ = .next ⟨c, e', v'⟩ → step ⟨c, f, v⟩ = .next ⟨c, f', v''⟩ → e'.Agrees f' ∧ v' = v''

/-- R98, R144: when every port is idle, the value of `REG` is `NEXT` folded from zero over the slots of the accepted
`INC` words, each exactly once, in some order: no increment is lost and none counted twice. -/
def Obligations.FinishedRunCountsEveryIncrement : Prop :=
  ∀ (c : Config) (e : Engine c), e.Explained → (∀ p : Fin c.p, (e.port p).ph = .idle) →
    ∃ ks : List Nat, ks.Perm (acceptedIncs e.hist) ∧ e.reg = nextAll c 0 ks

/-- R79, R97: every state the machine can reach from reset, in any configuration and under any words and turns, is sound
and explained by its history, also when words and turns are laid down anew between steps. -/
def Obligations.ReachableStatesAreSoundAndExplained : Prop :=
  ∀ s : State, Reachable s → s.hw.Sound ∧ s.hw.Explained

/-- R101, R102, R144: a finite workload ends. With no round of turns laid down, every word is accepted and every port idle
within the bound; and under any order of turns that is weakly fair to the ports, every accepted command ends. R101 needs the
strong swap of R49, the reading log entry 15 marks unsafe for liveness; that an enabled step is always taken once the
laid-down turns are used up is the model's choice (log entry 3). -/
def Obligations.FiniteWorkloadEnds : Prop :=
  (∀ (c : Config) (e : Engine c) (v : Env c), v.FiniteWorkload → v.round = [] →
    ∃ t : State, run (State.workBound ⟨c, e, v⟩) ⟨c, e, v⟩ = .next t ∧ t.Finished) ∧
  (∀ (c : Config) (e : Engine c) (v : Env c) (p : Fin c.p), v.FiniteWorkload → WeaklyFair c e v →
    (e.port p).ph ≠ .idle → CommandEnds c e v p)

/-- R153, R102, R148 (90_conflicts.md C3): under weak fairness every `RATIO` ends, whatever the other ports do; but with
endlessly many `INC` commands from another port an `INC` may fail any number of times and never complete, in a run that is
weakly fair and begins at reset. (With `S = 2` a swap may write the old value, R84, and need not make another fail.) That
requesters and turns can go on without end is held as data by log entries 3 and 5. -/
def Obligations.EndlessIncrementsCanStarveAnIncButNoRatio : Prop :=
  (∀ (c : Config) (e : Engine c) (v : Env c) (p : Fin c.p), WeaklyFair c e v → (e.port p).ph = .ratioLoad →
    CommandEnds c e v p) ∧
  (∀ (c : Config) (p q : Fin c.p) (j k : SlotIx), 3 ≤ c.s → p ≠ q → j.toNat < c.n → k.toNat < c.n →
    ∃ v : Env c, WeaklyFair c (Engine.atReset c) v ∧
      (∃ (e' : Engine c) (v' : Env c), run 1 ⟨c, Engine.atReset c, v⟩ = .next ⟨c, e', v'⟩ ∧
        e'.hist = [.reset, .accept p (encode (.inc j))]) ∧
      (∀ n, ∃ (e' : Engine c) (v' : Env c), run (n + 1) ⟨c, Engine.atReset c, v⟩ = .next ⟨c, e', v'⟩ ∧
        ((e'.port p).ph = .incLoad ∨ (e'.port p).ph = .incCas) ∧ .reset ∉ e'.hist.tail) ∧
      (∀ f, ∃ (n : Nat) (e' : Engine c) (v' : Env c), run n ⟨c, Engine.atReset c, v⟩ = .next ⟨c, e', v'⟩ ∧
        failureCount e'.hist = f ∧ successCount e'.hist = f))

/-! ### Litmus (95_test_vectors.md) -/

/-- R147, R86, 90_conflicts.md C4, vectors V28 and V27: the order in which two increments of different slots take effect
can matter, and a decay caused by a third slot can change the ratio of two others. -/
def Obligations.OrderAndDecayMatter : Prop :=
  ((nextAll Config.shipped32 (BitVec.ofNat _ 0x00027FFF) [0, 1]).toNat = 0x00024000 ∧
    (nextAll Config.shipped32 (BitVec.ofNat _ 0x00027FFF) [1, 0]).toNat = 0x00014000) ∧
  (ratioQ Config.shipped64 (BitVec.ofNat _ 0x00007FFF00010003) 0 1 = 3 ∧
    (nextValue Config.shipped64 (BitVec.ofNat _ 0x00007FFF00010003) 2).toNat = 0x0000400000000001 ∧
    ratioQ Config.shipped64 (BitVec.ofNat _ 0x0000400000000001) 0 1 = 0)
end

