-- ==== Sys2Proof/Laws/Decode.lean ====
section
/-! SUPPORT. The fields of an encoded command. -/

namespace Sys2Proof

/-- A bit of a word laid out as R57's three fields. -/
theorem getLsbD_fields (o : BitVec 4) (a b : SlotIx) (i : Nat) :
    BitVec.getLsbD (w := 16) ((o ++ a) ++ b) i =
      if i < 6 then b.getLsbD i else if i - 6 < 6 then a.getLsbD (i - 6) else o.getLsbD (i - 6 - 6) := by
  have h : BitVec.getLsbD (w := 4 + 6 + 6) ((o ++ a) ++ b) i =
      if i < 6 then b.getLsbD i else if i - 6 < 6 then a.getLsbD (i - 6) else o.getLsbD (i - 6 - 6) := by
    simp only [BitVec.getLsbD_append]
  exact h

theorem opField_fields (o : BitVec 4) (a b : SlotIx) : opField ((o ++ a) ++ b) = o := by
  ext i hi
  rw [opField, BitVec.getElem_extractLsb', getLsbD_fields, if_neg (by omega), if_neg (by omega)]
  rw [show 12 + i - 6 - 6 = i by omega, BitVec.getLsbD_eq_getElem hi]

theorem aField_fields (o : BitVec 4) (a b : SlotIx) : aField ((o ++ a) ++ b) = a := by
  ext i hi
  rw [aField, BitVec.getElem_extractLsb', getLsbD_fields, if_neg (by omega), if_pos (by omega),
    show 6 + i - 6 = i by omega, BitVec.getLsbD_eq_getElem hi]

theorem bField_fields (o : BitVec 4) (a b : SlotIx) : bField ((o ++ a) ++ b) = b := by
  ext i hi
  rw [bField, BitVec.getElem_extractLsb', getLsbD_fields, if_pos (by omega), Nat.zero_add,
    BitVec.getLsbD_eq_getElem hi]

theorem opField_encode_inc (k : SlotIx) : opField (encode (.inc k)) = 0x1#4 := opField_fields _ _ _
theorem aField_encode_inc (k : SlotIx) : aField (encode (.inc k)) = k := aField_fields _ _ _
theorem bField_encode_inc (k : SlotIx) : bField (encode (.inc k)) = 0#6 := bField_fields _ _ _
theorem opField_encode_ratio (a b : SlotIx) : opField (encode (.ratio a b)) = 0x2#4 := opField_fields _ _ _
theorem aField_encode_ratio (a b : SlotIx) : aField (encode (.ratio a b)) = a := aField_fields _ _ _
theorem bField_encode_ratio (a b : SlotIx) : bField (encode (.ratio a b)) = b := bField_fields _ _ _

end Sys2Proof
end

