-- ==== Sys2Proof/Laws/Float.lean ====
section
/-! SUPPORT. What rounding does, function by function: the integer a significand is rounded to, the step of a listed format
a rational falls on, and what a legal listed format owes. -/

namespace Sys2Proof.Machine

/-! ### Binary formats -/

/-- Everything rounding to an integer can do: take the floor, or the next integer when the quotient is not exact. -/
theorem roundFrac_cases (r : Rounding) (x : Nat) {y : Nat} (hy : 0 < y) :
    roundFrac r x y = x / y ∨ (x % y ≠ 0 ∧ roundFrac r x y = x / y + 1) := by
  cases r <;> simp only [roundFrac]
  case nearestEven => split <;> first | (right; constructor <;> omega) | simp
  case nearestAway => split <;> first | (right; constructor <;> omega) | simp
  case towardZero => simp
  case down => simp
  case up => split <;> simp_all

/-- An exact quotient is not rounded. -/
theorem roundFrac_of_dvd (r : Rounding) {x y : Nat} (hy : 0 < y) (h : x % y = 0) : roundFrac r x y = x / y := by
  obtain h' | ⟨h', -⟩ := roundFrac_cases r x hy
  · exact h'
  · exact absurd h h'

theorem roundBits_binary_zero (b : BinaryFmt) : roundBits (.binary b) 0 = 0 := rfl

theorem roundBits_listed_zero (l : ListedFmt) : roundBits (.listed l) 0 = l.zero := rfl

theorem roundBits_binary_of_pos (b : BinaryFmt) {q : Rat} (h : 0 < q) :
    roundBits (.binary b) q = roundBinary b q.num.toNat q.den :=
  if_neg (not_le.mpr (Rat.num_pos.mpr h))

theorem roundBits_listed_of_pos (l : ListedFmt) {q : Rat} (h : 0 < q) :
    roundBits (.listed l) q = (pickListed l q).bits :=
  if_neg (not_le.mpr (Rat.num_pos.mpr h))

/-! ### Listed formats -/

theorem climb_mem (q : Rat) (t : RoundStep) (us : List RoundStep) : climb q t us ∈ t :: us := by
  induction us generalizing t with
  | nil => simp [climb]
  | cons u us ih =>
    simp only [climb]
    split
    · exact List.mem_cons_of_mem _ (ih u)
    · simp

theorem pickListed_mem (l : ListedFmt) (q : Rat) : pickListed l q ∈ l.steps := climb_mem q l.first l.rest

/-- A larger rational falls on the same step or a later one. -/
theorem climb_value_le {t : RoundStep} {us : List RoundStep} (h : (t :: us).Pairwise (fun a b => a.value ≤ b.value))
    {q r : Rat} (hqr : q ≤ r) : (climb q t us).value ≤ (climb r t us).value := by
  induction us generalizing t with
  | nil => exact le_refl _
  | cons u us ih =>
    simp only [climb]
    obtain ⟨ht, hu⟩ := List.pairwise_cons.mp h
    split
    · next hq => rw [if_pos (le_trans hq hqr)]; exact ih hu
    · split
      · exact ht _ (climb_mem r u us)
      · exact le_refl _

/-- What a legal listed format owes, as propositions (R112). -/
theorem listedMeetsDuties_iff (l : ListedFmt) : listedMeetsDuties l = true ↔
    l.zero < 2 ^ l.width ∧
    (∀ t ∈ l.steps, t.bits < 2 ^ l.width ∧ t.bits ≠ l.zero ∧ 0 < t.value ∧ (pickListed l t.value).value = t.value ∧
      ∀ u ∈ l.steps, t.bits = u.bits → t.value = u.value) ∧
    l.steps.Pairwise (fun t u => t.value ≤ u.value) := by
  simp only [listedMeetsDuties, Bool.and_eq_true, List.all_eq_true, decide_eq_true_eq, and_assoc]

/-- A pattern of a legal listed format is read as the value of any step that has it. -/
theorem readListed_of_mem {l : ListedFmt} (h : listedMeetsDuties l = true) {t : RoundStep} (ht : t ∈ l.steps) :
    readListed l t.bits = t.value := by
  obtain ⟨-, hs, -⟩ := (listedMeetsDuties_iff l).mp h
  unfold readListed
  cases hf : l.steps.find? (fun u => decide (u.bits = t.bits)) with
  | none => exact absurd (List.find?_eq_none.mp hf t ht) (by simp)
  | some u =>
    have hu : u.bits = t.bits := by simpa using List.find?_some hf
    exact (hs u (List.mem_of_find?_eq_some hf)).2.2.2.2 t ht hu

end Sys2Proof.Machine
end

