-- ==== Sys2Proof/Laws/History.lean ====
section
/-! SUPPORT. How the readings of a history go over a history that grows at its end. -/

namespace Sys2Proof.Machine

variable {c : Config}

theorem regAfterAll_append (v : BitVec c.w) (xs ys : List (Event c)) :
    regAfterAll v (xs ++ ys) = (regAfterAll v xs).bind (fun v' => regAfterAll v' ys) := by
  induction xs generalizing v with
  | nil => rfl
  | cons ev xs ih =>
    simp only [List.cons_append, regAfterAll]
    cases regAfter v ev with
    | none => rfl
    | some v' => exact ih v'

theorem progress_afterAll_append (p : Fin c.p) (m : Progress c) (xs ys : List (Event c)) :
    m.afterAll p (xs ++ ys) = (m.afterAll p xs).bind (fun m' => m'.afterAll p ys) := by
  induction xs generalizing m with
  | nil => rfl
  | cons ev xs ih =>
    simp only [List.cons_append, Progress.afterAll]
    cases m.after p ev with
    | none => rfl
    | some m' => exact ih m'

theorem successCount_append (xs ys : List (Event c)) : successCount (xs ++ ys) = successCount xs + successCount ys := by
  induction xs with
  | nil => simp [successCount]
  | cons ev xs ih => cases ev <;> simp [successCount, ih]; omega

theorem failureCount_append (xs ys : List (Event c)) : failureCount (xs ++ ys) = failureCount xs + failureCount ys := by
  induction xs with
  | nil => simp [failureCount]
  | cons ev xs ih => cases ev <;> simp [failureCount, ih]; omega

theorem acceptedIncs_append (xs ys : List (Event c)) : acceptedIncs (xs ++ ys) = acceptedIncs xs ++ acceptedIncs ys := by
  induction xs with
  | nil => rfl
  | cons ev xs ih =>
    cases ev with
    | accept p w =>
      simp only [List.cons_append, acceptedIncs, ih]
      cases decode c w with
      | error _ => rfl
      | ok i => cases i <;> rfl
    | _ => simpa only [List.cons_append, acceptedIncs] using ih

theorem nextAll_append (v : BitVec c.w) (ks ls : List Nat) : nextAll c v (ks ++ ls) = nextAll c (nextAll c v ks) ls :=
  List.foldl_append

end Sys2Proof.Machine
end

