-- ==== Sys2Proof/Laws/Operands.lean ====
section
/-! SUPPORT. One lemma per derived constant and field of a packed value: as arithmetic on naturals, or bit by bit. -/

namespace Sys2Proof.Machine

variable {c : Config}

theorem vmax_add_one (c : Config) : vmax c + 1 = 2 ^ (c.s - 1) := by
  unfold vmax usable
  have := Nat.one_le_two_pow (n := c.s - 1)
  omega

theorem vmax_pos (c : Config) : 0 < vmax c := by
  have h := vmax_add_one c
  have : 2 ^ 1 ≤ 2 ^ (c.s - 1) := Nat.pow_le_pow_right (by decide) (by have := c.s_ge; omega)
  omega

/-- Slot `k` lies inside the register. -/
theorem off_add_le (c : Config) {k : Nat} (h : k < c.n) : off c k + c.s ≤ c.w := by
  have h1 : (k + 1) * c.s ≤ c.n * c.s := Nat.mul_le_mul_right _ h
  have h2 : off c k + c.s = (k + 1) * c.s := by simp [off, Nat.succ_mul]
  have := c.fits
  omega

theorem s_le_w (c : Config) : c.s ≤ c.w := by
  have := off_add_le c c.n_pos
  omega

/-- Two slots do not overlap. -/
theorem off_add_le_off (c : Config) {j k : Nat} (h : j < k) : off c j + c.s ≤ off c k := by
  have h1 : (j + 1) * c.s ≤ k * c.s := Nat.mul_le_mul_right _ h
  simp only [off]
  rw [Nat.succ_mul] at h1
  omega

theorem sentPos_lt (c : Config) {k : Nat} (h : k < c.n) : sentPos c k < c.w := by
  have := off_add_le c h
  have := c.s_ge
  unfold sentPos
  omega

theorem vmax_lt_two_pow (c : Config) : vmax c < 2 ^ c.w := by
  have h1 := vmax_add_one c
  have h2 : 2 ^ (c.s - 1) ≤ 2 ^ c.w := Nat.pow_le_pow_right (by decide) (by have := s_le_w c; omega)
  omega

theorem unit_toNat (c : Config) {k : Nat} (h : k < c.n) : (unit c k).toNat = 2 ^ off c k := by
  have h1 := off_add_le c h
  have h2 := c.s_ge
  have hw : 1 < 2 ^ c.w := Nat.one_lt_two_pow (by omega)
  rw [unit, BitVec.toNat_shiftLeft, BitVec.toNat_ofNat, Nat.mod_eq_of_lt hw, Nat.one_shiftLeft]
  exact Nat.mod_eq_of_lt (Nat.pow_lt_pow_right (by decide) (by omega))

/-- A slot's value is the field of `S − 1` bits at its offset. -/
theorem value_eq (c : Config) (v : BitVec c.w) (k : Nat) :
    value c v k = v.toNat / 2 ^ off c k % 2 ^ (c.s - 1) := by
  rw [value, BitVec.toNat_and, BitVec.toNat_ushiftRight, BitVec.toNat_ofNat, Nat.mod_eq_of_lt (vmax_lt_two_pow c),
    vmax, usable, Nat.and_two_pow_sub_one_eq_mod, Nat.shiftRight_eq_div_pow]

theorem value_le_vmax (c : Config) (v : BitVec c.w) (k : Nat) : value c v k ≤ vmax c := by
  have h := vmax_add_one c
  have : value c v k < 2 ^ (c.s - 1) := by
    rw [value_eq]
    exact Nat.mod_lt _ (Nat.two_pow_pos _)
  omega

theorem slot_toNat (c : Config) (v : BitVec c.w) (k : Nat) :
    (slot c v k).toNat = v.toNat / 2 ^ off c k % 2 ^ c.s := by
  rw [slot, BitVec.extractLsb'_toNat, Nat.shiftRight_eq_div_pow]

/-- A bit of the sentinel mask of the first `k` slots. -/
theorem sentMaskBelow_getLsbD (c : Config) (k i : Nat) :
    (sentMaskBelow c k).getLsbD i = (decide (i < c.w) && decide (∃ j, j < k ∧ i = sentPos c j)) := by
  induction k with
  | zero => simp [sentMaskBelow]
  | succ k ih =>
    have hs : (∃ j, j < k + 1 ∧ i = sentPos c j) ↔ (∃ j, j < k ∧ i = sentPos c j) ∨ i = sentPos c k := by
      constructor
      · rintro ⟨j, hj, rfl⟩
        rcases Nat.lt_succ_iff_lt_or_eq.mp hj with h | rfl
        · exact .inl ⟨j, h, rfl⟩
        · exact .inr rfl
      · rintro (⟨j, hj, rfl⟩ | rfl)
        · exact ⟨j, by omega, rfl⟩
        · exact ⟨k, by omega, rfl⟩
    have hb : (1#c.w <<< sentPos c k).getLsbD i = (decide (i < c.w) && decide (i = sentPos c k)) := by
      rw [BitVec.getLsbD_shiftLeft, BitVec.getLsbD_one]
      by_cases hi : i < c.w <;> by_cases he : i = sentPos c k <;> simp [hi, he] <;> omega
    rw [sentMaskBelow, BitVec.getLsbD_or, ih, hb, ← Bool.and_or_distrib_left, ← Bool.decide_or]
    congr 1
    exact decide_eq_decide.mpr hs.symm

/-- The next value by whether the sum overflows. -/
theorem nextValue_of_not_ovf {v : BitVec c.w} {k : Nat} (h : ovf c v k = false) : nextValue c v k = sum c v k := by
  simp [nextValue, h]

theorem nextValue_of_ovf {v : BitVec c.w} {k : Nat} (h : ovf c v k = true) : nextValue c v k = decayed c v k := by
  simp [nextValue, h]

end Sys2Proof.Machine
end

