-- ==== Sys2Proof/Laws/State.lean ====
section
/-! SUPPORT. The small lemmas of the state: what writing a port, recording an event and reset leave in each field. -/

namespace Sys2Proof.Machine

variable {c : Config}

@[simp] theorem Engine.setPort_reg (e : Engine c) (p : Fin c.p) (x : Port c) : (e.setPort p x).reg = e.reg := rfl
@[simp] theorem Engine.setPort_hist (e : Engine c) (p : Fin c.p) (x : Port c) : (e.setPort p x).hist = e.hist := rfl
@[simp] theorem Engine.setPort_ports (e : Engine c) (p : Fin c.p) (x : Port c) :
    (e.setPort p x).ports = e.ports.set p.val x p.isLt := rfl
@[simp] theorem Engine.record_reg (e : Engine c) (ev : Event c) : (e.record ev).reg = e.reg := rfl
@[simp] theorem Engine.record_ports (e : Engine c) (ev : Event c) : (e.record ev).ports = e.ports := rfl
@[simp] theorem Engine.record_hist (e : Engine c) (ev : Event c) : (e.record ev).hist = e.hist ++ [ev] := rfl
@[simp] theorem Engine.record_port (e : Engine c) (ev : Event c) (p : Fin c.p) : (e.record ev).port p = e.port p := rfl

@[simp] theorem Engine.setPort_port_self (e : Engine c) (p : Fin c.p) (x : Port c) : (e.setPort p x).port p = x := by
  simp [Engine.setPort, Engine.port]

theorem Engine.setPort_port_of_ne (e : Engine c) {p q : Fin c.p} (x : Port c) (h : q ≠ p) :
    (e.setPort p x).port q = e.port q := by
  simp only [Engine.setPort, Engine.port, Fin.getElem_fin]
  exact Vector.getElem_set_ne p.isLt q.isLt fun hv => h (Fin.ext hv.symm)

theorem Engine.setPort_port (e : Engine c) (p q : Fin c.p) (x : Port c) :
    (e.setPort p x).port q = if q = p then x else e.port q := by
  split
  · next h => subst h; simp
  · next h => exact e.setPort_port_of_ne x h

/-- A port read in an engine written out by its fields, as the statements write it. -/
theorem Engine.port_mk_set (r : BitVec c.w) (ports : Vector (Port c) c.p) (h : List (Event c)) (p q : Fin c.p)
    (x : Port c) :
    Engine.port ⟨r, ports.set p.val x p.isLt, h⟩ q = if q = p then x else ports[q] :=
  (⟨r, ports, h⟩ : Engine c).setPort_port p q x

@[simp] theorem Engine.atReset_reg : (Engine.atReset c).reg = 0 := rfl
@[simp] theorem Engine.atReset_hist : (Engine.atReset c).hist = [.reset] := rfl
@[simp] theorem Engine.atReset_port (p : Fin c.p) : (Engine.atReset c).port p = Port.atReset c := by
  simp [Engine.atReset, Engine.port]
@[simp] theorem Port.atReset_ph : (Port.atReset c).ph = .idle := rfl

@[simp] theorem State.reset_cfg : State.reset.cfg = Config.atReset := rfl

end Sys2Proof.Machine
end

