-- ==== Sys2Proof/Laws/Ops.lean ====
section
/-! SUPPORT. One lemma per shared operation that says everything it can do, as an engine written out by its fields; the
meaning of each command by the port's phase; what a drawn turn leads to. -/

namespace Sys2Proof.Machine

variable {c : Config}

/-! ### The primitives -/

@[simp] theorem Engine.load_eq (e : Engine c) : e.load = e.reg := rfl

theorem Engine.cas_of_eq (e : Engine c) {x n : BitVec c.w} (h : e.reg = x) : e.cas x n = (true, { e with reg := n }) := by
  simp [Engine.cas, h]

theorem Engine.cas_of_ne (e : Engine c) {x n : BitVec c.w} (h : e.reg ≠ x) : e.cas x n = (false, e) := by
  simp [Engine.cas, h]

/-! ### The shared steps -/

theorem raiseIllegal_eq (e : Engine c) (p : Fin c.p) (w : CmdWord) :
    raiseIllegal e p w = ⟨e.reg, e.ports.set p.val { e.port p with rsp := ⟨.illegal, 0⟩, ph := .done } p.isLt,
      e.hist ++ [.accept p w]⟩ := rfl

theorem complete_eq (e : Engine c) (p : Fin c.p) :
    complete e p = ⟨e.reg, e.ports.set p.val { e.port p with ph := .idle } p.isLt,
      e.hist ++ [.complete p (e.port p).rsp.status (e.port p).rsp.data]⟩ := rfl

@[simp] theorem notAccepted_eq (e : Engine c) : notAccepted e = e := rfl

@[simp] theorem resetEngine_eq (e : Engine c) : resetEngine e = Engine.atReset c := rfl

/-! ### The steps of the commands -/

theorem incAccept_eq (e : Engine c) (p : Fin c.p) (k : SlotIx) :
    incAccept e p k = ⟨e.reg, e.ports.set p.val { e.port p with opa := k, ph := .incLoad } p.isLt,
      e.hist ++ [.accept p (encode (.inc k))]⟩ := rfl

theorem incLoad_eq (e : Engine c) (p : Fin c.p) :
    incLoad e p = ⟨e.reg, e.ports.set p.val { e.port p with cur := e.reg, ph := .incCas } p.isLt,
      e.hist ++ [.iload p e.reg]⟩ := rfl

theorem incCas_of_current (e : Engine c) (p : Fin c.p) (h : e.reg = (e.port p).cur) :
    incCas e p = ⟨nextValue c (e.port p).cur (e.port p).opa.toNat,
      e.ports.set p.val { e.port p with rsp := ⟨.ok, 0⟩, ph := .done } p.isLt,
      e.hist ++ [.casOk p e.reg (nextValue c (e.port p).cur (e.port p).opa.toNat)]⟩ := by
  simp only [incCas, e.cas_of_eq h]
  rfl

theorem incCas_of_stale (e : Engine c) (p : Fin c.p) (h : e.reg ≠ (e.port p).cur) :
    incCas e p = ⟨e.reg, e.ports.set p.val { e.port p with ph := .incLoad } p.isLt,
      e.hist ++ [.casFail p (e.port p).cur]⟩ := by
  simp only [incCas, e.cas_of_ne h]
  rfl

theorem ratioAccept_eq (e : Engine c) (p : Fin c.p) (a b : SlotIx) :
    ratioAccept e p a b = ⟨e.reg, e.ports.set p.val { e.port p with opa := a, opb := b, ph := .ratioLoad } p.isLt,
      e.hist ++ [.accept p (encode (.ratio a b))]⟩ := rfl

theorem ratioLoad_eq (e : Engine c) (p : Fin c.p) :
    ratioLoad e p = ⟨e.reg, e.ports.set p.val { e.port p with
        rsp := ⟨.ok, ratioData c e.reg (e.port p).opa.toNat (e.port p).opb.toNat⟩, ph := .done } p.isLt,
      e.hist ++ [.rload p e.reg]⟩ := rfl

/-- Everything `INC k` can do at a port. -/
theorem incStep_cases (e : Engine c) (p : Fin c.p) (k : SlotIx) :
    ((e.port p).ph = .idle ∧ k.toNat < c.n ∧ incStep e p k = incAccept e p k) ∨
    ((e.port p).ph = .idle ∧ c.n ≤ k.toNat ∧ incStep e p k = raiseIllegal e p (encode (.inc k))) ∨
    ((e.port p).ph = .incLoad ∧ (e.port p).opa = k ∧ incStep e p k = incLoad e p) ∨
    ((e.port p).ph = .incCas ∧ (e.port p).opa = k ∧ incStep e p k = incCas e p) ∨
    ((e.port p).ph = .done ∧ incStep e p k = complete e p) ∨
    ((e.port p).ph ≠ .idle ∧ (e.port p).ph ≠ .done ∧ ((e.port p).ph = .ratioLoad ∨ (e.port p).opa ≠ k) ∧
      incStep e p k = e) := by
  unfold incStep
  cases h : (e.port p).ph
  case idle => by_cases hk : k.toNat < c.n <;> simp [hk]; omega
  case incLoad => by_cases hk : (e.port p).opa = k <;> simp [hk]
  case incCas => by_cases hk : (e.port p).opa = k <;> simp [hk]
  case ratioLoad => simp
  case done => simp

/-- Everything `RATIO a, b` can do at a port. -/
theorem ratioStep_cases (e : Engine c) (p : Fin c.p) (a b : SlotIx) :
    ((e.port p).ph = .idle ∧ a.toNat < c.n ∧ b.toNat < c.n ∧ ratioStep e p a b = ratioAccept e p a b) ∨
    ((e.port p).ph = .idle ∧ (c.n ≤ a.toNat ∨ c.n ≤ b.toNat) ∧
      ratioStep e p a b = raiseIllegal e p (encode (.ratio a b))) ∨
    ((e.port p).ph = .ratioLoad ∧ (e.port p).opa = a ∧ (e.port p).opb = b ∧ ratioStep e p a b = ratioLoad e p) ∨
    ((e.port p).ph = .done ∧ ratioStep e p a b = complete e p) ∨
    ((e.port p).ph ≠ .idle ∧ (e.port p).ph ≠ .done ∧
      ((e.port p).ph ≠ .ratioLoad ∨ (e.port p).opa ≠ a ∨ (e.port p).opb ≠ b) ∧ ratioStep e p a b = e) := by
  unfold ratioStep
  cases h : (e.port p).ph
  case idle => by_cases hk : a.toNat < c.n ∧ b.toNat < c.n <;> simp [hk]; omega
  case ratioLoad =>
    by_cases hk : (e.port p).opa = a ∧ (e.port p).opb = b
    · simp [hk]
    · simp [hk]; exact Or.inr (Decidable.not_and_iff_not_or_not.mp hk)
  case incLoad => simp
  case incCas => simp
  case done => simp

/-! ### The meanings -/

theorem exec_inc (k : SlotIx) (e : Engine c) (v : Env c) :
    exec (.inc k) ⟨c, e, v⟩ = .next ⟨c, incStep e v.act k, v⟩ := rfl

theorem exec_ratio (a b : SlotIx) (e : Engine c) (v : Env c) :
    exec (.ratio a b) ⟨c, e, v⟩ = .next ⟨c, ratioStep e v.act a b, v⟩ := rfl

/-! ### What a requester presents -/

theorem Env.offered_of_inbox {v : Env c} {p : Fin c.p} {w : CmdWord} {ws : List CmdWord} (h : v.inbox[p] = w :: ws) :
    v.offered p = some w := by
  simp only [Env.offered, h]

theorem Env.taken_of_inbox {v : Env c} {p : Fin c.p} {w : CmdWord} {ws : List CmdWord} (h : v.inbox[p] = w :: ws) :
    v.taken p = { v with inbox := v.inbox.set p.val ws p.isLt } := by
  simp only [Env.taken, h]

/-- A requester has nothing to present exactly when its list is empty and nothing follows it. -/
theorem Env.offered_eq_none (v : Env c) (p : Fin c.p) :
    v.offered p = none ↔ v.inbox[p] = [] ∧ v.supply[p] = .nothing := by
  unfold Env.offered
  cases v.inbox[p] <;> cases v.supply[p] <;> simp

/-- Everything an acceptance changes outside the engine: the list of that port's requester, or the counter. -/
theorem Env.taken_cases (v : Env c) (p : Fin c.p) :
    (∃ ws, v.taken p = { v with inbox := v.inbox.set p.val ws p.isLt }) ∨ v.taken p = v ∨
      v.taken p = { v with tick := v.tick + 1 } := by
  unfold Env.taken
  cases v.inbox[p] with
  | cons w ws => exact .inl ⟨ws, rfl⟩
  | nil =>
    cases v.supply[p] with
    | nothing => exact .inr (.inl rfl)
    | again w ws => exact .inl ⟨ws, rfl⟩
    | free => exact .inr (.inr rfl)

@[simp] theorem Env.taken_act (v : Env c) (p : Fin c.p) : (v.taken p).act = v.act := by
  obtain ⟨ws, h⟩ | h | h := v.taken_cases p <;> rw [h]

@[simp] theorem Env.taken_sched (v : Env c) (p : Fin c.p) : (v.taken p).sched = v.sched := by
  obtain ⟨ws, h⟩ | h | h := v.taken_cases p <;> rw [h]

@[simp] theorem Env.taken_round (v : Env c) (p : Fin c.p) : (v.taken p).round = v.round := by
  obtain ⟨ws, h⟩ | h | h := v.taken_cases p <;> rw [h]

@[simp] theorem Env.taken_supply (v : Env c) (p : Fin c.p) : (v.taken p).supply = v.supply := by
  obtain ⟨ws, h⟩ | h | h := v.taken_cases p <;> rw [h]

theorem Env.taken_inbox_of_ne (v : Env c) {p q : Fin c.p} (h : q ≠ p) : (v.taken p).inbox[q] = v.inbox[q] := by
  obtain ⟨ws, e⟩ | e | e := v.taken_cases p <;> rw [e]
  simp only [Fin.getElem_fin]
  exact Vector.getElem_set_ne p.isLt q.isLt fun hv => h (Fin.ext hv.symm)

/-! ### Turns -/

theorem drawTurn_of_laid_down (e : Engine c) (v : Env c) {t : Turn c} {ts : List (Turn c)} (h : v.sched = t :: ts) :
    drawTurn e v = (some t, { v with sched := ts }) := by
  simp only [drawTurn, h]

theorem drawTurn_of_round (e : Engine c) (v : Env c) {t : Turn c} {ts : List (Turn c)} (h : v.sched = [])
    (hr : v.round = t :: ts) : drawTurn e v = (some t, { v with sched := ts }) := by
  simp only [drawTurn, h, hr]

/-- Everything drawing a turn can do. -/
theorem drawTurn_cases (e : Engine c) (v : Env c) :
    (∃ t ts, (v.sched = t :: ts ∨ (v.sched = [] ∧ v.round = t :: ts)) ∧
      drawTurn e v = (some t, { v with sched := ts })) ∨
    (v.sched = [] ∧ v.round = [] ∧ enabledTurns e v = [] ∧ drawTurn e v = (none, v)) ∨
    (v.sched = [] ∧ v.round = [] ∧ ∃ t ∈ enabledTurns e v,
      drawTurn e v = (some t, v) ∨ drawTurn e v = (some t, { v with tick := v.tick + 1 })) := by
  by_cases hl : ∃ t ts, v.sched = t :: ts ∨ (v.sched = [] ∧ v.round = t :: ts)
  · obtain ⟨t, ts, h | ⟨h, hr⟩⟩ := hl
    · exact .inl ⟨t, ts, .inl h, drawTurn_of_laid_down e v h⟩
    · exact .inl ⟨t, ts, .inr ⟨h, hr⟩, drawTurn_of_round e v h hr⟩
  · have hs : v.sched = [] := List.eq_nil_iff_forall_not_mem.mpr fun t ht => by
      cases h : v.sched with
      | nil => simp [h] at ht
      | cons t ts => exact hl ⟨t, ts, .inl h⟩
    have hr : v.round = [] := List.eq_nil_iff_forall_not_mem.mpr fun t ht => by
      cases h : v.round with
      | nil => simp [h] at ht
      | cons t ts => exact hl ⟨t, ts, .inr ⟨hs, h⟩⟩
    right
    match he : enabledTurns e v with
    | [] => exact .inl ⟨hs, hr, rfl, by simp only [drawTurn, hs, hr, he]⟩
    | [t] => exact .inr ⟨hs, hr, t, by simp, .inl (by simp only [drawTurn, hs, hr, he])⟩
    | t :: u :: ts =>
      have hlt : Config.freeChoice v.tick % (t :: u :: ts).length < (t :: u :: ts).length := Nat.mod_lt _ (by simp)
      exact .inr ⟨hs, hr, (t :: u :: ts)[_], List.getElem_mem hlt,
        .inr (by simp only [drawTurn, hs, hr, he, List.getElem?_eq_getElem hlt])⟩

@[simp] theorem drawTurn_act (e : Engine c) (v : Env c) : (drawTurn e v).2.act = v.act := by
  obtain ⟨t, ts, -, h⟩ | ⟨-, -, -, h⟩ | ⟨-, -, t, -, h | h⟩ := drawTurn_cases e v <;> rw [h]

@[simp] theorem drawTurn_inbox (e : Engine c) (v : Env c) : (drawTurn e v).2.inbox = v.inbox := by
  obtain ⟨t, ts, -, h⟩ | ⟨-, -, -, h⟩ | ⟨-, -, t, -, h | h⟩ := drawTurn_cases e v <;> rw [h]

@[simp] theorem drawTurn_supply (e : Engine c) (v : Env c) : (drawTurn e v).2.supply = v.supply := by
  obtain ⟨t, ts, -, h⟩ | ⟨-, -, -, h⟩ | ⟨-, -, t, -, h | h⟩ := drawTurn_cases e v <;> rw [h]

@[simp] theorem drawTurn_round (e : Engine c) (v : Env c) : (drawTurn e v).2.round = v.round := by
  obtain ⟨t, ts, -, h⟩ | ⟨-, -, -, h⟩ | ⟨-, -, t, -, h | h⟩ := drawTurn_cases e v <;> rw [h]

theorem mem_enabledTurns (e : Engine c) (v : Env c) (t : Turn c) :
    t ∈ enabledTurns e v ↔ ∃ p, enabledTurn e v p = some t := by
  simp [enabledTurns, List.mem_filterMap]

/-- The step a port or its requester has enabled. -/
theorem enabledTurn_eq_some (e : Engine c) (v : Env c) (p : Fin c.p) (t : Turn c) :
    enabledTurn e v p = some t ↔
      ((e.port p).ph ≠ .idle ∧ t = .port p) ∨ ((e.port p).ph = .idle ∧ v.offered p ≠ none ∧ t = .requester p) := by
  unfold enabledTurn
  cases (e.port p).ph <;> simp [eq_comm]

/-- Everything a requester's turn can do: begin a command, raise the exception, or pass. -/
theorem presentWord_cases (e : Engine c) (v : Env c) (p : Fin c.p) :
    (∃ w i, (e.port p).ph = .idle ∧ v.offered p = some w ∧ decode c w = .ok i ∧
      presentWord e v p = exec i ⟨c, e, { v.taken p with act := p }⟩) ∨
    (∃ w why, (e.port p).ph = .idle ∧ v.offered p = some w ∧ decode c w = .error why ∧
      presentWord e v p = .next ⟨c, raiseIllegal e p w, { v.taken p with act := p }⟩) ∨
    (((e.port p).ph ≠ .idle ∨ v.offered p = none) ∧ presentWord e v p = .next ⟨c, e, { v with act := p }⟩) := by
  unfold presentWord
  cases hph : (e.port p).ph <;> cases hin : v.offered p with
  | none => simp
  | some w => cases hd : decode c w <;> simp_all

/-- Everything a port's turn can do: the held command's next step, `COMPLETE`, or nothing. -/
theorem portTurn_cases (e : Engine c) (v : Env c) (p : Fin c.p) :
    (((e.port p).ph = .incLoad ∨ (e.port p).ph = .incCas) ∧
      portTurn e v p = exec (.inc (e.port p).opa) ⟨c, e, { v with act := p }⟩) ∨
    ((e.port p).ph = .ratioLoad ∧
      portTurn e v p = exec (.ratio (e.port p).opa (e.port p).opb) ⟨c, e, { v with act := p }⟩) ∨
    ((e.port p).ph = .done ∧ portTurn e v p = .next ⟨c, complete e p, { v with act := p }⟩) ∨
    ((e.port p).ph = .idle ∧ portTurn e v p = .next ⟨c, e, { v with act := p }⟩) := by
  unfold portTurn heldInstr
  cases h : (e.port p).ph <;> simp

end Sys2Proof.Machine
end

