-- ==== Sys2Proof/Laws/PerInstr.lean ====
section
/-! SUPPORT. Per instruction: an encoded command matches its own row of the opcode table. -/

namespace Sys2Proof.Laws.TableMatch

/-- The encoded word, under the mask of the command's row of spec/opcode_table.json, is the row's match. -/
def Statement (i : Instr) : Prop := encode i &&& i.row.mask = i.row.pattern

theorem inc (k : SlotIx) : Statement (.inc k) := by
  revert k; unfold Statement; decide

/-- The mask `0xF000` keeps the operation field alone. -/
theorem ratio (a b : SlotIx) : Statement (.ratio a b) := by
  refine BitVec.eq_of_getLsbD_eq fun i hi => ?_
  have hop : ∀ j, j < 16 → 12 ≤ j → BitVec.getLsbD 0x2#4 (j - 6 - 6) = BitVec.getLsbD 0x2000#16 j := by decide
  have hin : ∀ j, j < 16 → 12 ≤ j → BitVec.getLsbD 0xF000#16 j = true := by decide
  have hout : ∀ j, j < 12 → BitVec.getLsbD 0xF000#16 j = false ∧ BitVec.getLsbD 0x2000#16 j = false := by decide
  rw [BitVec.getLsbD_and]
  by_cases h : 12 ≤ i
  · show (BitVec.getLsbD (w := 16) ((0x2#4 ++ a) ++ b) i && BitVec.getLsbD 0xF000#16 i) = BitVec.getLsbD 0x2000#16 i
    rw [getLsbD_fields, if_neg (by omega), if_neg (by omega), hin i hi h, hop i hi h, Bool.and_true]
  · show (_ && BitVec.getLsbD 0xF000#16 i) = BitVec.getLsbD 0x2000#16 i
    rw [(hout i (by omega)).1, (hout i (by omega)).2, Bool.and_false]

end Sys2Proof.Laws.TableMatch
end

