-- ==== Sys2Proof/Laws/Step.lean ====
section
/-! SUPPORT. What a step is, by the turn drawn. -/

namespace Sys2Proof.Machine

variable {c : Config}

theorem step_eq (e : Engine c) (v : Env c) :
    step ⟨c, e, v⟩ = runTurn e (drawTurn e v).2 (drawTurn e v).1 := rfl

/-- Everything a step can do, by the turn drawn. -/
theorem step_cases (e : Engine c) (v : Env c) :
    ((drawTurn e v).1 = none ∧ step ⟨c, e, v⟩ = .next ⟨c, e, (drawTurn e v).2⟩) ∨
    (∃ p, (drawTurn e v).1 = some (.requester p) ∧ step ⟨c, e, v⟩ = presentWord e (drawTurn e v).2 p) ∨
    (∃ p, (drawTurn e v).1 = some (.port p) ∧ step ⟨c, e, v⟩ = portTurn e (drawTurn e v).2 p) ∨
    ((drawTurn e v).1 = some .reset ∧ step ⟨c, e, v⟩ = .next ⟨c, Engine.atReset c, (drawTurn e v).2⟩) := by
  rw [step_eq]
  cases h : (drawTurn e v).1 with
  | none => simp [runTurn]
  | some t => cases t <;> simp [runTurn]

theorem step_requester {e : Engine c} {v v' : Env c} {p : Fin c.p} (h : drawTurn e v = (some (.requester p), v')) :
    step ⟨c, e, v⟩ = presentWord e v' p := by
  rw [step_eq, h]; rfl

theorem step_port {e : Engine c} {v v' : Env c} {p : Fin c.p} (h : drawTurn e v = (some (.port p), v')) :
    step ⟨c, e, v⟩ = portTurn e v' p := by
  rw [step_eq, h]; rfl

theorem step_reset {e : Engine c} {v v' : Env c} (h : drawTurn e v = (some .reset, v')) :
    step ⟨c, e, v⟩ = .next ⟨c, Engine.atReset c, v'⟩ := by
  rw [step_eq, h]; rfl

theorem run_zero (s : State) : run 0 s = .next s := rfl

theorem run_succ_of_next {n : Nat} {s t : State} (h : step s = .next t) : run (n + 1) s = run n t := by
  simp only [run, h]

/-- A run goes on from where a shorter one has come. -/
theorem run_add_of_next {m n : Nat} {s t : State} (h : run m s = .next t) : run (n + m) s = run n t := by
  induction m generalizing s with
  | zero => cases h; rfl
  | succ m ih =>
    cases hs : step s with
    | next u =>
      rw [run_succ_of_next hs] at h
      rw [← Nat.add_assoc, run_succ_of_next hs, ih h]
    | fault r => exact nomatch r
    | refused r => simp only [run, hs] at h; cases h

theorem core_run_next (M : Host.Core) {n : Nat} {s t : M.State} (h : M.step s = .next t) :
    M.run (n + 1) s = M.run n t := by
  simp only [Host.Core.run, h]

theorem core_run_refused (M : Host.Core) {n : Nat} {s : M.State} {r : M.Refusal} (h : M.step s = .refused r) :
    M.run (n + 1) s = .refused r := by
  simp only [Host.Core.run, h]

/-- `run` is the host's `Core.run` of this machine. -/
theorem run_eq_core_run (n : Nat) (s : State) : run n s = core.run n s := by
  induction n generalizing s with
  | zero => rfl
  | succ n ih =>
    cases h : step s with
    | next t => exact (run_succ_of_next h).trans ((ih t).trans (core_run_next core h).symm)
    | fault r => exact nomatch r
    | refused r => simp only [run, h]; exact (core_run_refused core h).symm

end Sys2Proof.Machine
end

