-- ==== Sys2Proof/Tests/Slice0.lean ====
section
/-! SUPPORT. The model's own tests: the refusals of the well-formedness checks, words written out from the spec's encodings,
vectors of 95_test_vectors.md on single steps, and a witness for the hypotheses of each statement. Expected values are the
spec's. -/

namespace Sys2Proof.Tests

open Sys2Proof.Machine

/-! ### Well-formedness smoke: each check refuses an ill-formed term (R7, R9, R58, R59) -/

theorem test_no_slot_refused : Config.ofParams 0 16 32 1 .binary64 = none := by decide
theorem test_too_many_slots_refused : Config.ofParams 65 2 130 1 .binary64 = none := by decide
theorem test_one_bit_slot_refused : Config.ofParams 2 1 32 1 .binary64 = none := by decide
theorem test_slots_beyond_register_refused : Config.ofParams 3 16 32 1 .binary64 = none := by decide
theorem test_no_port_refused : Config.ofParams 2 16 32 0 .binary64 = none := by decide

/-- A fixed-point format with one fraction bit for slots of three bits (ratios from 1/3 to 3), rounding to nearest, never to
zero. -/
def fixedPoint : ListedFmt :=
  { width := 3, zero := 0, first := ⟨0, mkRat 1 2, 1⟩,
    rest := [⟨mkRat 3 4, 1, 2⟩, ⟨mkRat 5 4, mkRat 3 2, 3⟩, ⟨mkRat 7 4, 2, 4⟩, ⟨mkRat 9 4, mkRat 5 2, 5⟩, ⟨mkRat 11 4, 3, 6⟩] }

/-- R112 (b): 65535 overflows binary16. R112 (c): a value not rounded to itself; two values under one pattern. -/
theorem test_format_refused :
    Config.ofParams 2 17 34 1 (.binary ⟨5, 10, .nearestEven⟩) = none ∧
    Config.ofParams 2 3 6 1 (.listed { fixedPoint with rest := [⟨mkRat 3 4, 2, 2⟩, ⟨mkRat 3 2, 3, 3⟩] }) = none ∧
    Config.ofParams 2 3 6 1 (.listed { fixedPoint with rest := [⟨mkRat 3 4, 1, 1⟩] }) = none := by decide
/-- R112 asks neither for normal results nor for fraction bits nor for a binary format. -/
theorem test_format_accepted :
    Config.ofParams 2 16 32 1 (.binary ⟨5, 10, .nearestEven⟩) ≠ none ∧
    Config.ofParams 2 16 32 1 (.binary ⟨8, 0, .nearestEven⟩) ≠ none ∧
    Config.ofParams 2 3 6 1 (.listed fixedPoint) ≠ none := by decide
theorem test_shipped_config_accepted :
    Config.ofParams 4 16 64 2 .binary64 = some (Config.cfg64 2 (by decide)) ∧
    Config.ofParams 2 16 32 2 .binary32 ≠ none := by decide

/-- CFG32 with two ports. -/
def cfg : Config := Config.cfg32 2 (by decide)
/-- The slack configuration of vector V11. -/
def cfgSlack : Config :=
  { n := 3, s := 10, w := 32, p := 1, fmt := .binary64, n_pos := by decide, n_le := by decide, s_ge := by decide,
    fits := by decide, p_pos := by decide, fmt_ok := by decide }
/-- The smallest slots, vector V12, with two ports. -/
def cfgTiny : Config :=
  { n := 2, s := 2, w := 4, p := 2, fmt := .binary64, n_pos := by decide, n_le := by decide, s_ge := by decide,
    fits := by decide, p_pos := by decide, fmt_ok := by decide }

/-- The two ports of `cfg`. -/
def p0 : Fin cfg.p := ⟨0, by decide⟩
def p1 : Fin cfg.p := ⟨1, by decide⟩

theorem test_inc_slot_refused : (Instr.inc 2).wf cfg = false := by decide
theorem test_ratio_numerator_refused : (Instr.ratio 2 0).wf cfg = false := by decide
theorem test_ratio_denominator_refused : (Instr.ratio 0 2).wf cfg = false := by decide

/-! ### Decoding, words written out by the fields of R57 -/

/-- `0001 kkkkkk 000000` (R58), V23. -/
theorem test_inc_word : decode Config.atReset 0b0001000011000000#16 = .ok (.inc 3) := by decide
/-- `0010 aaaaaa bbbbbb` (R59), V23. -/
theorem test_ratio_word : decode Config.atReset 0b0010000010000011#16 = .ok (.ratio 2 3) := by decide
/-- One word per clause of R60, V24. -/
theorem test_illegal_words :
    decode cfg 0x0000#16 = .error .reservedOp ∧ decode cfg 0xFFFF#16 = .error .reservedOp ∧
    decode cfg 0x103F#16 = .error .reservedField ∧ decode cfg 0x1080#16 = .error .incSlot ∧
    decode cfg 0x2002#16 = .error .ratioSlot ∧ decode cfg 0x2080#16 = .error .ratioSlot := by decide
/-- V25. -/
theorem test_encode : encode (.inc 3) = 0x10C0#16 ∧ encode (.ratio 2 1) = 0x2081#16 := by decide
/-- The table of R66 (V7), each row's first and last word. -/
theorem test_accessors :
    (accessor .A .B).map encode = some 0x2001#16 ∧ (accessor .D .C).map encode = some 0x20C2#16 ∧
    (accessor .C .A).map encode = some 0x2080#16 ∧ accessor .B .B = none := by decide
/-- R64. -/
theorem test_asm : (Instr.ratio 0 1).asm = "RATIO 0, 1" ∧ (Instr.inc 2).asm = "INC 2" ∧
    (Instr.inc 2).asmOn 1 = "p1: INC 2" := by decide
/-- R62. -/
theorem test_status_bits : Status.ok.bit = 0#1 ∧ Status.illegal.bit = 1#1 := by decide
/-- The fixed names on a table word: the word decodes, and presented at reset it is accepted by port 0. -/
theorem test_table_word :
    decodeTableWord 16 0x2083 = some (.ratio 2 3) ∧
    (match step (State.reset.withFetchWord 16 0x10C0) with
      | .next t => t.hw.ports.toList.map Port.ph
      | .fault _ => []
      | .refused _ => []) = [.incLoad, .idle] := by decide

/-! ### `NEXT` and the result (V8, V9, V11, V12, V15, V26) -/

/-- The constants of the slack configuration, V11. -/
theorem test_constants :
    slackBits cfgSlack = 2 ∧ vmax cfgSlack = 511 ∧ off cfgSlack 2 = 20 ∧ (unit cfgSlack 1).toNat = 0x00000400 ∧
    (sentMask cfgSlack).toNat = 0x20080200 ∧ (keepMask cfgSlack).toNat = 0xDFF7FDFF := by decide
theorem test_next :
    (nextValue cfg (BitVec.ofNat _ 0x00020001) 1).toNat = 0x00030001 ∧ (nextValue cfg (BitVec.ofNat _ 0x00037FFF) 0).toNat = 0x00014000 ∧
    (nextValue cfg (BitVec.ofNat _ 0x7FFF7FFF) 1).toNat = 0x40003FFF ∧ (nextValue cfgSlack (BitVec.ofNat _ 0x1FF7FDFF) 1).toNat = 0x0FF400FF ∧
    (nextValue cfgTiny (BitVec.ofNat _ 0b0101) 1).toNat = 0b0100 ∧ (nextValue cfg (BitVec.ofNat _ 0xFFFFFFFF) 0).toNat = 0 := by decide
theorem test_round :
    (roundFmt .binary64 (mkRat 1 3)).toNat = 0x3FD5555555555555 ∧ (roundFmt .binary64 (mkRat 5 3)).toNat = 0x3FFAAAAAAAAAAAAB ∧
    (roundFmt .binary64 (mkRat 1 32767)).toNat = 0x3F00002000400080 ∧ (roundFmt .binary64 32767).toNat = 0x40DFFFC000000000 := by
  decide
/-- By hand: 1/32767 is 512 times 2^(-24) and a little more, a subnormal binary16; 1/3 is nearest to one half in fixed point. -/
theorem test_round_other_formats :
    (roundFmt (.binary ⟨5, 10, .nearestEven⟩) (mkRat 1 32767)).toNat = 0x0200 ∧
    (roundFmt (.binary ⟨5, 10, .nearestEven⟩) 65519).toNat = 0x7BFF ∧
    (roundFmt (.binary ⟨5, 10, .nearestEven⟩) 65520).toNat = 0x7C00 ∧
    (roundFmt (.listed fixedPoint) (mkRat 1 3)).toNat = 1 ∧ (roundFmt (.listed fixedPoint) (mkRat 5 3)).toNat = 3 := by
  decide

/-! ### Single steps -/

/-- A port of `cfg` with the given phase, operands, loaded value and response status. -/
def port (ph : Phase) (a b : SlotIx) (cur : BitVec 32) (st : Status) : Port cfg :=
  { ph := ph, opa := a, opb := b, cur := cur, rsp := { status := st, data := 0 } }
/-- An idle port. -/
def idle : Port cfg := port .idle 0 0 0 .ok
/-- An engine of `cfg` with the given register and port 0; port 1 is idle. -/
def engine (reg : BitVec 32) (x : Port cfg) : Engine cfg := ⟨reg, #v[x, idle], [.reset]⟩
/-- Port 0's words and the turns laid down. -/
def env (ws : List CmdWord) (ts : List (Turn cfg)) : Env cfg :=
  { act := p0, inbox := #v[ws, []], supply := #v[.nothing, .nothing], sched := ts, round := [], tick := 0 }
/-- The engine of an outcome of `exec` or `step`, seen as the register, the phases and the last event's kind of response. -/
def seen : Host.Outcome State Fault Refusal → Option (Nat × List Phase × List Nat × Nat)
  | .next t => some (t.hw.reg.toNat, t.hw.ports.toList.map Port.ph, t.hw.ports.toList.map (fun x => x.rsp.data.toNat),
      t.hw.hist.length)
  | .fault _ => none
  | .refused _ => none

/-- V19: the swap of `INC 1` on `0x00020001`. -/
theorem test_inc_swap :
    seen (exec (.inc 1) ⟨cfg, engine 0x00020001 (port .incCas 1 0 0x00020001 .ok), env [] []⟩) =
      some (0x00030001, [.done, .idle], [0, 0], 2) := by decide
/-- V20: a swap of a stale value fails. -/
theorem test_inc_retry :
    seen (exec (.inc 1) ⟨cfg, engine 0x00020002 (port .incCas 1 0 0x00020001 .ok), env [] []⟩) =
      some (0x00020002, [.incLoad, .idle], [0, 0], 2) := by decide
/-- R123: `RATIO 0, 1` on `0x00020001` is 0.5. -/
theorem test_ratio_answer :
    seen (exec (.ratio 0 1) ⟨cfg, engine 0x00020001 (port .ratioLoad 0 1 0 .ok), env [] []⟩) =
      some (0x00020001, [.done, .idle], [0x3FE0000000000000, 0], 2) := by decide
/-- V30: `RATIO 0, 0` on a zero slot is 0. -/
theorem test_ratio_zero :
    seen (exec (.ratio 0 0) ⟨cfg, engine 0x00020000 (port .ratioLoad 0 0 0 .ok), env [] []⟩) =
      some (0x00020000, [.done, .idle], [0, 0], 2) := by decide
/-- P6: the word `0x1080` is illegal in CFG32 and touches nothing. -/
theorem test_illegal_step :
    seen (step ⟨cfg, engine 0x00020001 idle, env [0x1080#16] [.requester p0]⟩) =
      some (0x00020001, [.done, .idle], [0, 0], 2) := by decide
/-- V31: reset drops a command in flight. -/
theorem test_reset_step :
    seen (step ⟨cfg, engine 0x00020001 (port .incCas 1 0 0x00020001 .ok), env [] [.reset]⟩) =
      some (0, [.idle, .idle], [0, 0], 1) := by decide
/-- With nothing laid down the only enabled step is taken. -/
theorem test_only_enabled_step :
    seen (step ⟨cfg, engine 0x00020001 idle, env [0x1040#16] []⟩) =
      some (0x00020001, [.incLoad, .idle], [0, 0], 2) := by decide
/-- A requester with an endless supply of `INC 1` whose list is used up presents the next one, in a round that begins
again. -/
theorem test_endless_supply :
    let v : Env cfg := { env [] [] with supply := #v[.again 0x1040#16 [], .nothing], round := [.requester p0, .port p0] }
    seen (step ⟨cfg, engine 0x00020001 idle, v⟩) = some (0x00020001, [.incLoad, .idle], [0, 0], 2) ∧
    (drawTurn (engine 0 idle) v).2.sched = [.port p0] ∧ (v.taken p0).offered p0 = some 0x1040#16 := by decide

/-! ### Witnesses: states and operands that meet the hypotheses of the statements, boundary values among them -/

/-- DecodeInvertsEncode, EqualOperandsGiveOneOrZero: the last slot. -/
theorem witness_wf : (Instr.inc 1).wf cfg = true ∧ (Instr.ratio 1 1).wf cfg = true ∧ (1#6).toNat < cfg.n := by decide

/-- EncodeInvertsDecode. -/
theorem witness_decoded : decode cfg 0x1040#16 = .ok (.inc 1) ∧ decode cfg 0x2041#16 = .ok (.ratio 1 1) := by decide

/-- SumStaysInsideItsSlot, OverflowFiresExactlyAtVmax, IncrementAddsOneToItsSlot: one below the largest value. -/
theorem witness_normal : 0 < cfg.n ∧ WF cfg (BitVec.ofNat _ 0x7FFE7FFE) = true ∧
    value cfg (BitVec.ofNat _ 0x7FFE7FFE) 0 < vmax cfg ∧ value cfg (BitVec.ofNat _ 0x7FFE7FFE) 0 ≠ vmax cfg := by decide

/-- OverflowFiresExactlyAtVmax, DecayHalvesEverySlot, DecayIsHalveThenIncrement, NextKeepsWellFormed, ArithmeticShiftAgrees,
DecayingSlotIsLargest: the largest value in the top slot, another slot at 1. -/
theorem witness_decay : 1 < cfg.n ∧ WF cfg (BitVec.ofNat _ 0x7FFF0001) = true ∧
    value cfg (BitVec.ofNat _ 0x7FFF0001) 1 = vmax cfg ∧ 0 < cfg.n ∧ (0 : Nat) ≠ 1 ∧
    value cfg (BitVec.ofNat _ 0x7FFF0001) 0 ≤ 1 := by decide

/-- SlotPositionIsUnobservable: the two slots of CFG32 exchanged. -/
theorem witness_permuted :
    (∀ j, j < cfg.n → 1 - j < cfg.n) ∧ (∀ i, i < cfg.n → ∀ j, j < cfg.n → 1 - i = 1 - j → i = j) ∧
    WF cfg (BitVec.ofNat _ 0x00020001) = true ∧ WF cfg (BitVec.ofNat _ 0x00010002) = true ∧
    ∀ j, j < cfg.n → value cfg (BitVec.ofNat _ 0x00010002) (1 - j) = value cfg (BitVec.ofNat _ 0x00020001) j := by decide

/-- FixedPointsOfNext, both clauses; WellFormedValuesAreReachable. -/
theorem witness_fixed_point : 0 < cfgTiny.n ∧ WF cfgTiny (unit cfgTiny 0) = true ∧ cfgTiny.s = 2 ∧
    WF cfg (BitVec.ofNat _ 0x00020001) = true ∧ 3 ≤ cfg.s := by decide

/-- ValuesAreCountsBeforeDecay, both clauses. -/
theorem witness_counts : (∀ k ∈ [0, 1, 1], k < cfg.n) ∧ (∀ k, k < cfg.n → [0, 1, 1].count k ≤ vmax cfg) ∧
    1 ≤ [0, 1, 1].count 1 ∧ (∀ k ∈ [0, 0], k < cfg.n) ∧ 1 < cfg.n ∧ 1 ∉ [0, 0] := by decide

/-- IncIsAccepted (both clauses), RatioIsAccepted, IllegalWordsAreExactlyThese, StepRunsThePresentedWord. -/
theorem witness_presented :
    drawTurn (engine 0 idle) (env [0x1040#16] [.requester p0]) = (some (.requester p0), env [0x1040#16] []) ∧
    drawTurn (engine 0 idle) (env [0x2001#16] [.requester p0]) = (some (.requester p0), env [0x2001#16] []) ∧
    drawTurn (engine 0 idle) (env [0x1080#16] [.requester p0]) = (some (.requester p0), env [0x1080#16] []) ∧
    ((engine 0 idle).port p0).ph = .idle ∧ (env [0x1040#16] []).offered p0 = some 0x1040#16 ∧
    (env [0x2001#16] []).offered p0 = some 0x2001#16 ∧ (env [0x1080#16] []).offered p0 = some 0x1080#16 ∧
    decode cfg 0x1040#16 = .ok (.inc 1) ∧ decode cfg 0x2001#16 = .ok (.ratio 0 1) ∧
    decode cfg 0x1080#16 = .error .incSlot ∧
    ((engine 0 (port .incLoad 0 0 0 .ok)).port p0).ph ≠ .idle := by decide

/-- A port of `cfg` about to swap a current value, about to load, and done. -/
def swapping : Port cfg := port .incCas 1 0 0x00020001 .ok

/-- IncLoadsTheRegister, IncSwapsWhenCurrent, IncRetriesWhenStale, DonePortCompletes. -/
theorem witness_inc_phases :
    ((engine 0 (port .incLoad 1 0 0 .ok)).port (env [] []).act).ph = .incLoad ∧
    ((engine 0 (port .incLoad 1 0 0 .ok)).port (env [] []).act).opa = 1 ∧
    ((engine 0x00020001 swapping).port (env [] []).act).ph = .incCas ∧
    ((engine 0x00020001 swapping).port (env [] []).act).opa = 1 ∧
    (engine 0x00020001 swapping).reg = ((engine 0x00020001 swapping).port (env [] []).act).cur ∧
    (engine 0x00020000 swapping).reg ≠ ((engine 0x00020000 swapping).port (env [] []).act).cur ∧
    ((engine 0 (port .done 1 0 0 .ok)).port (env [] []).act).ph = .done ∧
    drawTurn (engine 0 (port .done 1 0 0 .ok)) (env [] [.port p0]) = (some (.port p0), env [] []) := by decide

/-- IncAloneTakesFourSteps, RatioTakesThreeSteps, RatioAfterResetIsZero. -/
theorem witness_whole_commands :
    (1#6).toNat < cfg.n ∧ (0#6).toNat < cfg.n ∧ ((engine 0 idle).port p0).ph = .idle ∧
    (env [0x1040#16] [.requester p0, .port p0, .port p0, .port p0]).offered p0 = some (encode (.inc 1)) ∧
    (env [0x2001#16] [.requester p0, .port p0, .port p0]).offered p0 = some (encode (.ratio 0 1)) := by decide

/-- IncFrame, RatioFrame, OnlySwapAndResetWriteTheRegister, StepIsASpecStep: outcomes that are next states. -/
theorem witness_next_states :
    (∃ e' v', exec (.inc 1) ⟨cfg, engine 0x00020001 swapping, env [] []⟩ = .next ⟨cfg, e', v'⟩) ∧
    (∃ e' v', exec (.ratio 0 1) ⟨cfg, engine 0 (port .ratioLoad 0 1 0 .ok), env [] []⟩ = .next ⟨cfg, e', v'⟩) ∧
    (∃ e' v', step ⟨cfg, engine 0x00020001 swapping, env [] [.port p0]⟩ = .next ⟨cfg, e', v'⟩) :=
  ⟨⟨_, _, rfl⟩, ⟨_, _, rfl⟩, ⟨_, _, rfl⟩⟩

/-- The engine of V20 (from zero) after port 1's swap failed. -/
def contended : Engine cfg :=
  { reg := 1
    ports := #v[port .done 0 0 0 .ok, port .incLoad 1 0 0 .ok]
    hist := [.reset, .accept p0 0x1000#16, .accept p1 0x1040#16, .iload p0 0, .iload p1 0, .casOk p0 0 1, .casFail p1 0] }

/-- EveryFailureHasAWinner, FailuresAreBoundedBySuccesses, StepKeepsTheEngineSound, StepKeepsTheHistoryExplained: an
explained and sound engine with a failure in its history, and a step of it. -/
theorem witness_contended : contended.Explained ∧ contended.Sound ∧
    contended.hist = [.reset, .accept p0 0x1000#16, .accept p1 0x1040#16, .iload p0 0] ++
      (.iload p1 0 :: [.casOk p0 0 1]) ++ (.casFail p1 0 :: []) ∧ (∀ z, Event.iload p1 z ∉ [Event.casOk p0 0 1]) ∧
    ∃ s', step ⟨cfg, contended, env [] [.port p1]⟩ = .next s' := by
  refine ⟨⟨rfl, by decide, by decide, by decide⟩, ⟨by decide, by decide⟩, rfl, ?_, _, rfl⟩
  simp

/-- OfTwoEqualSwapsTheFirstWins: with a new value in CFG32, and with the old one in the smallest slots (V21). -/
theorem witness_two_swaps :
    p0 ≠ p1 ∧
    (∀ p : Fin cfg.p, (Engine.port (⟨0x00020001, #v[swapping, swapping], []⟩ : Engine cfg) p).ph = .incCas ∧
      (Engine.port (⟨0x00020001, #v[swapping, swapping], []⟩ : Engine cfg) p).cur = 0x00020001) ∧
    nextValue cfg (BitVec.ofNat _ 0x00020001) 1 ≠ BitVec.ofNat _ 0x00020001 ∧
    nextValue cfgTiny (unit cfgTiny 0) 0 = unit cfgTiny 0 := by decide

/-- ForeignOrIllFormedCommandHasNoEffect, each clause: another command's phase, another slot, an index equal to `N`. -/
theorem witness_foreign :
    ((engine 0 (port .ratioLoad 0 1 0 .ok)).port (env [] []).act).ph = .ratioLoad ∧
    ((engine 0 (port .incLoad 1 0 0 .ok)).port (env [] []).act).ph = .incLoad ∧
    ((engine 0 (port .incLoad 1 0 0 .ok)).port (env [] []).act).opa ≠ 0 ∧
    ((engine 0 idle).port (env [] []).act).ph = .idle ∧
    (Instr.inc 2).wf cfg = false ∧ (Instr.ratio 0 2).wf cfg = false := by decide

/-- RatioAnswersFromOneLoad, ZeroDenominatorAnswersZero, StepRunsTheHeldCommand. -/
theorem witness_ratio_phase :
    ((engine 1 (port .ratioLoad 0 1 0 .ok)).port (env [] []).act).ph = .ratioLoad ∧
    ((engine 1 (port .ratioLoad 0 1 0 .ok)).port (env [] []).act).opa = 0 ∧
    ((engine 1 (port .ratioLoad 0 1 0 .ok)).port (env [] []).act).opb = 1 ∧
    value cfg (engine 1 (port .ratioLoad 0 1 0 .ok)).reg (1#6).toNat = 0 ∧
    drawTurn (engine 1 (port .ratioLoad 0 1 0 .ok)) (env [] [.port p0]) = (some (.port p0), env [] []) ∧
    drawTurn (engine 1 swapping) (env [] [.port p0]) = (some (.port p0), env [] []) := by decide

/-- RatioIsTheExactQuotient, RatioResultIsZeroOrFinitePositive. -/
theorem witness_quotient : 0 < cfg.n ∧ 1 < cfg.n ∧ value cfg (BitVec.ofNat _ 0x00020001) 1 ≠ 0 ∧
    value cfg (BitVec.ofNat _ 0x00020001) 0 ≠ 0 ∧ value cfg (BitVec.ofNat _ 0x00000001) 1 = 0 := by decide

/-- RoundsToNearestEvenBinary64. -/
theorem witness_range : (1 : Rat) / 2 ^ 1022 ≤ 1 / 3 ∧ (1 / 3 : Rat) ≤ 2 ^ 1022 := by
  have h : (2 : Rat) ^ 2 ≤ 2 ^ 1022 := pow_le_pow_right₀ (by norm_num) (by norm_num)
  exact ⟨one_div_le_one_div_of_le (by norm_num) (le_trans (by norm_num) h), le_trans (by norm_num) h⟩

/-- FloatFormatsAreThoseOfR112, what a format owes: 1 and 2 lie in the range, and 1.0 is a finite positive pattern. -/
theorem witness_format :
    mkRat 1 (vmax cfg) ≤ 1 ∧ (1 : Rat) ≤ 2 ∧ (2 : Rat) ≤ vmax cfg ∧
    isPositiveFinite cfg.fmt (BitVec.ofNat _ 0x3FF0000000000000) = true := by decide

/-- FloatFormatsAreThoseOfR112, any rounding: to one bit, every positive rational to 1. -/
theorem witness_rounding :
    let round : Rat → BitVec 1 := fun q => if q ≤ 0 then 0 else 1
    let read : BitVec 1 → Rat := fun d => if d = 0 then 0 else 1
    2 ≤ 16 ∧ read (round 0) = 0 ∧
    (∀ q : Rat, mkRat 1 (2 ^ (16 - 1) - 1) ≤ q → q ≤ (2 ^ (16 - 1) - 1 : Nat) → 0 < read (round q)) ∧
    (∀ q r : Rat, 0 ≤ q → q ≤ r → read (round q) ≤ read (round r)) ∧
    (∀ q : Rat, 0 ≤ q → read (round (read (round q))) = read (round q)) := by
  have key : ∀ q : Rat, (if (if q ≤ 0 then (0 : BitVec 1) else 1) = 0 then (0 : Rat) else 1) = if q ≤ 0 then 0 else 1 := by
    intro q; split <;> simp
  refine ⟨by decide, by decide, fun q h _ => ?_, fun q r _ h => ?_, fun q _ => ?_⟩
  · have : (0 : Rat) < q := lt_of_lt_of_le (by decide) h
    simp [not_le.mpr this]
  · simp only [key]
    split <;> split <;> norm_num; linarith
  · simp only [key]
    split <;> norm_num

/-- IllegalWordRaisesIllegalCommand, ResetClearsTheEngine. -/
theorem witness_illegal_and_reset :
    ((engine 0 idle).port p0).ph = .idle ∧
    (env [0xFFFF#16] [.requester p0, .port p0]).offered p0 = some 0xFFFF#16 ∧
    decode cfg 0xFFFF#16 = .error .reservedOp ∧
    drawTurn (engine 1 swapping) (env [] [.reset]) = (some .reset, env [] []) := by decide

/-- PortsDoNotTouchEachOther. -/
theorem witness_other_port : (drawTurn contended (env [] [.port p1])).1 = some (.port p1) ∧ p0 ≠ p1 := by decide

/-- EverySpecStepIsTaken: a failing swap is a step of the relation. -/
theorem witness_spec_step : ∃ e' : Engine cfg, SpecStep (engine 0 swapping) e' :=
  ⟨_, .casFail _ p0 (by decide) (by decide)⟩

/-- EverySpecStepIsTaken, the sequences: an engine that is reset over and over. -/
theorem witness_spec_run : ∃ σ : Nat → Engine cfg, ∀ i, SpecStep (σ i) (σ (i + 1)) :=
  ⟨fun _ => Engine.atReset cfg, fun _ => .reset _ _ rfl (by simp) rfl⟩

/-- DeadLatchesAreNeverRead: two engines that differ in a latch of an idle port. -/
theorem witness_agreeing :
    (engine 0 idle).Agrees (engine 0 (port .idle 5 6 7 .illegal)) ∧ engine 0 idle ≠ engine 0 (port .idle 5 6 7 .illegal) :=
  ⟨⟨rfl, rfl, by decide⟩, by decide⟩

/-- FinishedRunCountsEveryIncrement: an `INC 1` that completed. -/
theorem witness_finished : ∃ e : Engine cfg, e.Explained ∧ (∀ p : Fin cfg.p, (e.port p).ph = .idle) ∧
    acceptedIncs e.hist = [1] :=
  ⟨⟨0x00010000, #v[idle, idle], [.reset, .accept p0 0x1040#16, .iload p0 0, .casOk p0 0 0x00010000,
    .complete p0 .ok 0]⟩, ⟨rfl, by decide, by decide, by decide⟩, by decide, by decide⟩

/-- ReachableStatesAreSoundAndExplained. -/
theorem witness_reachable : Reachable ⟨cfg, Engine.atReset cfg, env [0x1040#16] [.requester p0]⟩ := .start _ _

/-- Port 0 with a `RATIO` to load, and its two turns to come. -/
def oneRatio : State := ⟨cfg, engine 0 (port .ratioLoad 0 1 0 .ok), env [] [.port p0, .port p0]⟩

/-- With nothing laid down and nothing to do the machine stays where it is. -/
theorem run_of_quiet {e : Engine cfg} {v : Env cfg} (h : drawTurn e v = (none, v)) (n : Nat) :
    run n ⟨cfg, e, v⟩ = .next ⟨cfg, e, v⟩ := by
  induction n with
  | zero => rfl
  | succ n ih => rw [run_succ_of_next (t := ⟨cfg, e, v⟩) (by rw [step_eq, h]; rfl), ih]

/-- FiniteWorkloadEnds, both clauses, EndlessIncrementsCanStarveAnIncButNoRatio: a busy port, a finite workload, and an
order of turns that is fair to it; two ports and slots that are not the smallest. -/
theorem witness_fair :
    oneRatio.env.FiniteWorkload ∧ oneRatio.env.round = [] ∧ (oneRatio.hw.port p0).ph = .ratioLoad ∧
    WeaklyFair cfg oneRatio.hw oneRatio.env ∧ 3 ≤ cfg.s ∧ p0 ≠ p1 := by
  refine ⟨fun p => by revert p; decide, rfl, rfl, fun n e₁ v₁ p h hp => ?_, by decide, by decide⟩
  match n with
  | 0 =>
    cases h
    refine ⟨0, _, _, rfl, .inr ?_⟩
    revert p; decide
  | 1 =>
    cases h
    refine ⟨0, _, _, rfl, .inr ?_⟩
    revert p; decide
  | n + 2 =>
    obtain ⟨e, v, h2, hq, hi⟩ : ∃ e v, run 2 oneRatio = .next ⟨cfg, e, v⟩ ∧ drawTurn e v = (none, v) ∧
        ∀ p, (e.port p).ph = .idle := ⟨_, _, rfl, by decide, by decide⟩
    rw [show (⟨cfg, oneRatio.hw, oneRatio.env⟩ : State) = oneRatio from rfl, run_add_of_next h2, run_of_quiet hq] at h
    cases h
    exact absurd (hi p) hp

end Sys2Proof.Tests
end

section
/-! SUPPORT. Rounding to a binary format over the rationals: a significand is the rational divided by the quantum of its
binade, the pattern is the number of binades above the subnormal scale times `2^fracBits` plus that significand, normal or
subnormal, carry or not; and the reading of a pattern in the same two numbers. -/

namespace Sys2Proof.Machine

/-! ### Rounding to an integer -/

/-- A larger fraction with the same floor has the larger remainder, as a part of the divisor. -/
theorem mod_mul_le_mod_mul {x y x' y' : Nat} (h : x * y' ≤ x' * y) (hdiv : x / y = x' / y') :
    x % y * y' ≤ x' % y' * y := by
  have hx := Nat.div_add_mod x y
  have hx' := Nat.div_add_mod x' y'
  rw [← hdiv] at hx'
  nlinarith

/-- Rounding to an integer keeps the order of the fractions `x/y` and `x'/y'`. -/
theorem roundFrac_mono (r : Rounding) {x y x' y' : Nat} (hy : 0 < y) (hy' : 0 < y') (h : x * y' ≤ x' * y) :
    roundFrac r x y ≤ roundFrac r x' y' := by
  have hdiv : x / y ≤ x' / y' := by
    rw [Nat.le_div_iff_mul_le hy']
    have := Nat.div_mul_le_self x y
    exact Nat.le_of_mul_le_mul_right (by nlinarith : x / y * y' * y ≤ x' * y) hy
  obtain hlt | heq := hdiv.lt_or_eq
  · have hup : roundFrac r x y ≤ x / y + 1 := by
      obtain h' | ⟨-, h'⟩ := roundFrac_cases r x hy <;> omega
    have hdown : x' / y' ≤ roundFrac r x' y' := by
      obtain h' | ⟨-, h'⟩ := roundFrac_cases r x' hy' <;> omega
    omega
  · have hmod := mod_mul_le_mod_mul h heq
    have habove : y < 2 * (x % y) → y' < 2 * (x' % y') := fun hm =>
      Nat.lt_of_mul_lt_mul_right (a := y) (by nlinarith)
    have htie : y ≤ 2 * (x % y) → y' ≤ 2 * (x' % y') := fun hm =>
      Nat.le_of_mul_le_mul_right (by nlinarith) hy
    have hexact : x' % y' = 0 → x % y = 0 := fun h0 => by
      rw [h0, Nat.zero_mul, Nat.le_zero, Nat.mul_eq_zero] at hmod
      omega
    cases r <;> simp only [roundFrac, heq]
    case nearestEven => split <;> split <;> omega
    case nearestAway => split <;> split <;> omega
    case towardZero => exact le_rfl
    case down => exact le_rfl
    case up => split <;> split <;> omega

/-- A rational rounded to an integer; `roundFrac` at its reduced fraction. -/
def roundRat (r : Rounding) (t : Rat) : Nat := roundFrac r t.num.toNat t.den

/-- `roundFrac` depends on the rational alone. -/
theorem roundFrac_eq_roundRat (r : Rounding) (x : Nat) {y : Nat} (hy : 0 < y) :
    roundFrac r x y = roundRat r ((x : Rat) / y) := by
  have hcross : x * ((x : Rat) / y).den = ((x : Rat) / y).num.toNat * y := by
    have hnum : 0 ≤ ((x : Rat) / y).num := Rat.num_nonneg.mpr (by positivity)
    have hred : (((x : Rat) / y).num : Rat) / ((x : Rat) / y).den = x / y := Rat.num_div_den _
    rw [div_eq_div_iff (by simp) (by exact_mod_cast hy.ne')] at hred
    zify
    rw [Int.toNat_of_nonneg hnum]
    exact_mod_cast hred.symm
  exact le_antisymm (roundFrac_mono r hy (Rat.den_pos _) hcross.le) (roundFrac_mono r (Rat.den_pos _) hy hcross.ge)

theorem roundRat_mono (r : Rounding) {t u : Rat} (ht : 0 ≤ t) (h : t ≤ u) : roundRat r t ≤ roundRat r u := by
  apply roundFrac_mono r (Rat.den_pos _) (Rat.den_pos _)
  have hle := (Rat.le_iff t u).mp h
  zify
  rwa [Int.toNat_of_nonneg (Rat.num_nonneg.mpr ht), Int.toNat_of_nonneg (Rat.num_nonneg.mpr (ht.trans h))]

@[simp] theorem roundRat_natCast (r : Rounding) (n : Nat) : roundRat r n = n := by
  simpa [roundRat] using roundFrac_of_dvd r Nat.one_pos (Nat.mod_one n)

theorem le_roundRat (r : Rounding) {n : Nat} {t : Rat} (h : n ≤ t) : n ≤ roundRat r t := by
  simpa using roundRat_mono r n.cast_nonneg h

theorem roundRat_le (r : Rounding) {n : Nat} {t : Rat} (ht : 0 ≤ t) (h : t ≤ n) : roundRat r t ≤ n := by
  simpa using roundRat_mono r ht h

/-! ### The binary exponent -/

theorem zpow_two_eq_div (z : Int) : (2 : Rat) ^ z = 2 ^ z.toNat / 2 ^ (-z).toNat := by
  rw [← zpow_natCast, ← zpow_natCast, ← zpow_sub₀ two_ne_zero]
  congr 1
  omega

/-- The comparison `binExp` makes, over the rationals. -/
theorem zpow_two_le_div_iff (x : Nat) {y : Nat} (hy : 0 < y) (z : Int) :
    (2 : Rat) ^ z ≤ x / y ↔ y * 2 ^ z.toNat ≤ x * 2 ^ (-z).toNat := by
  rw [zpow_two_eq_div, div_le_div_iff₀ (by positivity) (by exact_mod_cast hy), ← Nat.cast_le (α := Rat)]
  push_cast
  rw [mul_comm (2 ^ z.toNat : Rat)]

theorem log_eq_of_bounds {q : Rat} {e : Int} (hle : (2 : Rat) ^ e ≤ q) (hlt : q < 2 ^ (e + 1)) : Int.log 2 q = e := by
  have hq : 0 < q := lt_of_lt_of_le (by positivity) hle
  have hge : e ≤ Int.log 2 q := (Int.zpow_le_iff_le_log one_lt_two hq).mp hle
  have hlt' : Int.log 2 q < e + 1 := (Int.lt_zpow_iff_log_lt one_lt_two hq).mp hlt
  omega

/-- `binExp` is the floor of the binary logarithm (R113). -/
theorem binExp_eq_log {x y : Nat} (hx : 0 < x) (hy : 0 < y) : binExp x y = Int.log 2 ((x : Rat) / y) := by
  have hx1 : (2 : Rat) ^ (x.log2 : Int) ≤ x := by exact_mod_cast Nat.log2_self_le hx.ne'
  have hx2 : (x : Rat) < 2 ^ ((x.log2 : Int) + 1) := by exact_mod_cast Nat.lt_log2_self
  have hy1 : (2 : Rat) ^ (y.log2 : Int) ≤ y := by exact_mod_cast Nat.log2_self_le hy.ne'
  have hy2 : (y : Rat) < 2 ^ ((y.log2 : Int) + 1) := by exact_mod_cast Nat.lt_log2_self
  have hlow : (2 : Rat) ^ ((x.log2 : Int) - y.log2 - 1) ≤ x / y := by
    rw [sub_sub, zpow_sub₀ two_ne_zero]
    exact div_le_div₀ (by positivity) hx1 (by exact_mod_cast hy) hy2.le
  have hhigh : (x : Rat) / y < 2 ^ ((x.log2 : Int) - y.log2 + 1) := by
    rw [sub_add_eq_add_sub, zpow_sub₀ two_ne_zero]
    exact div_lt_div₀ hx2 hy1 (by positivity) (by positivity)
  simp only [binExp, ← zpow_two_le_div_iff x hy]
  split
  · next h => exact (log_eq_of_bounds h hhigh).symm
  · next h => exact (log_eq_of_bounds hlow (by simpa using h)).symm

/-! ### Scale and significand of a rational -/

/-- How many binades a rational lies above those of the subnormal scale. -/
def scaleStep (b : BinaryFmt) (q : Rat) : Nat := (Int.log 2 q - b.minExp).toNat

/-- The distance of neighbouring values of the format, `k` binades above the subnormal scale. -/
def quantum (b : BinaryFmt) (k : Nat) : Rat := 2 ^ (b.minExp + k - b.fracBits)

/-- The rounded significand of a rational, `2^(fracBits+1)` when the rounding carried (R113). -/
def significand (b : BinaryFmt) (q : Rat) : Nat := roundRat b.rounding (q / quantum b (scaleStep b q))

/-- The pattern of a positive rational before overflow is looked at. A carry needs no case: it moves into the exponent
field by the addition. -/
def rawBits (b : BinaryFmt) (q : Rat) : Nat := scaleStep b q * 2 ^ b.fracBits + significand b q

theorem quantum_pos (b : BinaryFmt) (k : Nat) : 0 < quantum b k := by unfold quantum; positivity

theorem quantum_succ (b : BinaryFmt) (k : Nat) : quantum b (k + 1) = 2 * quantum b k := by
  unfold quantum
  rw [← zpow_one_add₀ two_ne_zero]
  congr 1
  push_cast
  ring

theorem two_pow_mul_quantum (b : BinaryFmt) (k : Nat) : (2 : Rat) ^ b.fracBits * quantum b k = 2 ^ (b.minExp + k) := by
  rw [quantum, ← zpow_natCast, ← zpow_add₀ two_ne_zero]
  congr 1
  ring

theorem two_pow_succ_mul_quantum (b : BinaryFmt) (k : Nat) :
    (2 : Rat) ^ (b.fracBits + 1) * quantum b k = 2 ^ (b.minExp + k + 1) := by
  rw [pow_succ, mul_right_comm, two_pow_mul_quantum, zpow_add_one₀ two_ne_zero]

theorem scaleStep_mono (b : BinaryFmt) {q r : Rat} (hq : 0 < q) (h : q ≤ r) : scaleStep b q ≤ scaleStep b r := by
  have := Int.log_mono_right (b := 2) hq h
  unfold scaleStep
  omega

theorem lt_two_pow_succ_mul_quantum_scaleStep (b : BinaryFmt) (q : Rat) :
    q < 2 ^ (b.fracBits + 1) * quantum b (scaleStep b q) := by
  rw [two_pow_succ_mul_quantum]
  refine (Int.lt_zpow_succ_log_self one_lt_two q).trans_le (zpow_le_zpow_right₀ one_le_two ?_)
  unfold scaleStep
  omega

theorem two_pow_mul_quantum_scaleStep_le {b : BinaryFmt} {q : Rat} (hq : 0 < q) (h : 0 < scaleStep b q) :
    2 ^ b.fracBits * quantum b (scaleStep b q) ≤ q := by
  rw [two_pow_mul_quantum]
  refine (zpow_le_zpow_right₀ one_le_two ?_).trans (Int.zpow_log_le_self one_lt_two hq)
  unfold scaleStep at h ⊢
  push_cast
  omega

theorem significand_le (b : BinaryFmt) {q : Rat} (hq : 0 < q) : significand b q ≤ 2 ^ (b.fracBits + 1) := by
  have hpos := quantum_pos b (scaleStep b q)
  apply roundRat_le _ (by positivity)
  rw [div_le_iff₀ hpos]
  exact_mod_cast (lt_two_pow_succ_mul_quantum_scaleStep b q).le

/-- Above the subnormal scale the significand has its leading one. -/
theorem le_significand {b : BinaryFmt} {q : Rat} (hq : 0 < q) (h : 0 < scaleStep b q) :
    2 ^ b.fracBits ≤ significand b q := by
  apply le_roundRat
  rw [le_div_iff₀ (quantum_pos b _)]
  exact_mod_cast two_pow_mul_quantum_scaleStep_le hq h

/-- R112 (b) before overflow: within a binade the significands keep the order, and a higher binade starts where the carry
of a lower one ends. -/
theorem rawBits_mono (b : BinaryFmt) {q r : Rat} (hq : 0 < q) (h : q ≤ r) : rawBits b q ≤ rawBits b r := by
  unfold rawBits
  obtain hlt | heq := (scaleStep_mono b hq h).lt_or_eq
  · have hm := significand_le b hq
    have hm' := le_significand (hq.trans_le h) (Nat.zero_lt_of_lt hlt)
    have hk : (scaleStep b q + 1) * 2 ^ b.fracBits ≤ scaleStep b r * 2 ^ b.fracBits := Nat.mul_le_mul_right _ hlt
    rw [pow_succ] at hm
    rw [Nat.add_mul] at hk
    omega
  · have hpos := quantum_pos b (scaleStep b r)
    have hm : significand b q ≤ significand b r := by
      unfold significand
      rw [heq]
      exact roundRat_mono _ (by positivity) (by gcongr)
    rw [heq]
    omega

/-! ### The pattern -/

theorem minExp_add_bias (b : BinaryFmt) : b.minExp + b.bias = 1 := by
  unfold BinaryFmt.minExp
  omega

/-- The packed fields are one sum, with the leading one carried into the exponent field. -/
theorem packBinary_eq (b : BinaryFmt) (k : Nat) {m : Nat} (hk : k = 0 ∨ 2 ^ b.fracBits ≤ m) :
    packBinary b (b.minExp + k) m = k * 2 ^ b.fracBits + m := by
  have hfield : (b.minExp + k + b.bias).toNat = k + 1 := by
    have := minExp_add_bias b
    omega
  rw [packBinary, hfield, Nat.add_mul]
  split
  · obtain rfl | hk := hk <;> omega
  · omega

theorem max_log_minExp (b : BinaryFmt) (q : Rat) : max (Int.log 2 q) b.minExp = b.minExp + scaleStep b q := by
  unfold scaleStep
  omega

/-- The integer `roundBinary` rounds its shifted fraction to is the significand. -/
theorem roundFrac_shifted (b : BinaryFmt) (x : Nat) {y : Nat} (hy : 0 < y) {z : Int}
    (hz : z = b.fracBits - (b.minExp + scaleStep b ((x : Rat) / y))) :
    roundFrac b.rounding (x * 2 ^ z.toNat) (y * 2 ^ (-z).toNat) = significand b ((x : Rat) / y) := by
  rw [roundFrac_eq_roundRat _ _ (by positivity), significand, quantum]
  congr 1
  push_cast
  rw [mul_div_mul_comm, ← zpow_two_eq_div, div_eq_mul_inv _ ((2 : Rat) ^ (_ : Int)), ← zpow_neg, hz, neg_sub]

theorem roundBinary_eq (b : BinaryFmt) {x y : Nat} (hx : 0 < x) (hy : 0 < y) :
    roundBinary b x y = clampBinary b (rawBits b ((x : Rat) / y)) := by
  simp only [roundBinary, binExp_eq_log hx hy, max_log_minExp, roundFrac_shifted b x hy rfl]
  congr 1
  split
  · next hcarry =>
    have hpack := packBinary_eq b (scaleStep b ((x : Rat) / y) + 1) (.inr le_rfl)
    push_cast at hpack
    rw [add_assoc, hpack, rawBits, hcarry]
    ring
  · exact packBinary_eq b _ ((Nat.eq_zero_or_pos _).imp_right (le_significand (by positivity)))

theorem roundBits_binary (b : BinaryFmt) {q : Rat} (hq : 0 < q) :
    roundBits (.binary b) q = clampBinary b (rawBits b q) := by
  have hnum : 0 < q.num := Rat.num_pos.mpr hq
  have hred : ((q.num.toNat : Nat) : Rat) / q.den = q := by
    rw [← Int.cast_natCast, Int.toNat_of_nonneg hnum.le, Rat.num_div_den]
  rw [roundBits_binary_of_pos b hq, roundBinary_eq b (by omega) q.den_pos, hred]

/-! ### Overflow -/

theorem clampBinary_of_lt {b : BinaryFmt} {n : Nat} (h : n < b.infinity) : clampBinary b n = n := if_pos h

theorem clampBinary_of_le {b : BinaryFmt} {n : Nat} (h : b.infinity ≤ n) :
    clampBinary b n = b.infinity ∨ clampBinary b n = b.infinity - 1 := by
  rw [clampBinary, if_neg (by omega)]
  cases b.rounding <;> simp

theorem clampBinary_le (b : BinaryFmt) (n : Nat) : clampBinary b n ≤ b.infinity := by
  obtain h | h := Nat.lt_or_ge n b.infinity
  · exact (clampBinary_of_lt h).trans_le h.le
  · obtain h | h := clampBinary_of_le h <;> omega

theorem clampBinary_mono (b : BinaryFmt) {m n : Nat} (h : m ≤ n) : clampBinary b m ≤ clampBinary b n := by
  obtain hm | hm := Nat.lt_or_ge m b.infinity
  · obtain hn | hn := Nat.lt_or_ge n b.infinity
    · rwa [clampBinary_of_lt hn, clampBinary_of_lt hm]
    · rw [clampBinary_of_lt hm]
      obtain h | h := clampBinary_of_le hn <;> omega
  · rw [clampBinary, clampBinary, if_neg (by omega), if_neg (by omega)]

theorem infinity_lt_two_pow_width (b : BinaryFmt) : b.infinity < 2 ^ b.width := by
  have he : 0 < 2 ^ b.expBits := by positivity
  calc b.infinity < 2 ^ b.expBits * 2 ^ b.fracBits := Nat.mul_lt_mul_of_pos_right (by omega) (by positivity)
    _ = 2 ^ (b.expBits + b.fracBits) := (pow_add ..).symm
    _ ≤ 2 ^ b.width := Nat.pow_le_pow_right two_pos (by unfold BinaryFmt.width; omega)

theorem roundFmt_binary_toNat (b : BinaryFmt) {q : Rat} (hq : 0 < q) :
    (roundFmt (.binary b) q).toNat = clampBinary b (rawBits b q) := by
  rw [← roundBits_binary b hq]
  refine Nat.mod_eq_of_lt ?_
  rw [roundBits_binary b hq]
  exact (clampBinary_le b _).trans_lt (infinity_lt_two_pow_width b)

/-! ### Reading a pattern back -/

/-- Every pattern has a scale and a significand, with a leading one above the subnormal scale. -/
theorem exists_scale_significand (b : BinaryFmt) (n : Nat) : ∃ k m, n = k * 2 ^ b.fracBits + m ∧
    (k = 0 ∨ 2 ^ b.fracBits ≤ m) ∧ m < 2 ^ (b.fracBits + 1) := by
  have hdiv := Nat.div_add_mod' n (2 ^ b.fracBits)
  have hmod := Nat.mod_lt n (Nat.two_pow_pos b.fracBits)
  rw [pow_succ]
  cases hfield : n / 2 ^ b.fracBits with
  | zero => exact ⟨0, n, by omega, .inl rfl, by rw [hfield] at hdiv; omega⟩
  | succ k =>
    refine ⟨k, 2 ^ b.fracBits + n % 2 ^ b.fracBits, ?_, .inr (by omega), by omega⟩
    rw [hfield, Nat.add_mul] at hdiv
    omega

theorem significand_pos_of_bits_pos {b : BinaryFmt} {k m : Nat} (hn : 0 < k * 2 ^ b.fracBits + m)
    (hk : k = 0 ∨ 2 ^ b.fracBits ≤ m) : 0 < m := by
  have := Nat.two_pow_pos b.fracBits
  obtain rfl | hk := hk <;> omega

theorem readBinary_subnormal (b : BinaryFmt) {m : Nat} (hm : m < 2 ^ b.fracBits) : readBinary b m = m * quantum b 0 := by
  simp [readBinary, quantum, Nat.div_eq_of_lt hm, Nat.mod_eq_of_lt hm]

theorem readBinary_normal (b : BinaryFmt) (k : Nat) {m : Nat} (hle : 2 ^ b.fracBits ≤ m)
    (hlt : m < 2 ^ (b.fracBits + 1)) : readBinary b (k * 2 ^ b.fracBits + m) = m * quantum b k := by
  obtain ⟨r, rfl⟩ := Nat.exists_eq_add_of_le hle
  have hr : r < 2 ^ b.fracBits := by rw [pow_succ] at hlt; omega
  have hbits : k * 2 ^ b.fracBits + (2 ^ b.fracBits + r) = r + (k + 1) * 2 ^ b.fracBits := by ring
  have hexp : ((k + 1 : Nat) : Int) - b.bias - b.fracBits = b.minExp + k - b.fracBits := by
    have := minExp_add_bias b
    omega
  simp only [readBinary, hbits, Nat.add_mul_div_right _ _ (Nat.two_pow_pos b.fracBits), Nat.div_eq_of_lt hr,
    Nat.add_mul_mod_self_right, Nat.mod_eq_of_lt hr, Nat.zero_add, hexp, quantum, k.succ_ne_zero, if_false]

/-- A pattern stands for its significand in quanta of its scale, the carry included. -/
theorem readBinary_eq (b : BinaryFmt) {k m : Nat} (hk : k = 0 ∨ 2 ^ b.fracBits ≤ m) (hm : m ≤ 2 ^ (b.fracBits + 1)) :
    readBinary b (k * 2 ^ b.fracBits + m) = m * quantum b k := by
  obtain hm | rfl := hm.lt_or_eq
  · obtain hf | hf := Nat.lt_or_ge m (2 ^ b.fracBits)
    · obtain rfl : k = 0 := by omega
      simpa using readBinary_subnormal b hf
    · exact readBinary_normal b k hf hm
  · have hlt : 2 ^ b.fracBits < 2 ^ (b.fracBits + 1) := Nat.pow_lt_pow_right one_lt_two (by omega)
    have hcarry : k * 2 ^ b.fracBits + 2 ^ (b.fracBits + 1) = (k + 1) * 2 ^ b.fracBits + 2 ^ b.fracBits := by ring
    rw [hcarry, readBinary_normal b (k + 1) le_rfl hlt, quantum_succ]
    push_cast
    ring

theorem readBinary_mono (b : BinaryFmt) : Monotone (readBinary b) := by
  refine monotone_nat_of_le_succ fun n => ?_
  obtain ⟨k, m, rfl, hk, hm⟩ := exists_scale_significand b n
  have hpos := quantum_pos b k
  rw [readBinary_eq b hk hm.le, Nat.add_assoc, readBinary_eq b (hk.imp_right (·.trans m.le_succ)) hm]
  gcongr
  exact m.le_succ

theorem readBinary_pos (b : BinaryFmt) {n : Nat} (hn : 0 < n) : 0 < readBinary b n := by
  obtain ⟨k, m, rfl, hk, hm⟩ := exists_scale_significand b n
  have hm0 := significand_pos_of_bits_pos hn hk
  have hpos := quantum_pos b k
  rw [readBinary_eq b hk hm.le]
  positivity

theorem scaleStep_mul_quantum (b : BinaryFmt) {k m : Nat} (hm0 : 0 < m) (hk : k = 0 ∨ 2 ^ b.fracBits ≤ m)
    (hm : m < 2 ^ (b.fracBits + 1)) : scaleStep b (m * quantum b k) = k := by
  have hpos := quantum_pos b k
  have hv : (0 : Rat) < m * quantum b k := by positivity
  have hlt : Int.log 2 ((m : Rat) * quantum b k) < b.minExp + k + 1 := by
    rw [← Int.lt_zpow_iff_log_lt one_lt_two hv, Nat.cast_ofNat, ← two_pow_succ_mul_quantum]
    gcongr
    exact_mod_cast hm
  unfold scaleStep
  obtain rfl | hk := hk
  · omega
  · have hle : b.minExp + k ≤ Int.log 2 ((m : Rat) * quantum b k) := by
      rw [← Int.zpow_le_iff_le_log one_lt_two hv, Nat.cast_ofNat, ← two_pow_mul_quantum]
      gcongr
      exact_mod_cast hk
    omega

/-- R112 (c): the value of a positive pattern is rounded to that very pattern. -/
theorem rawBits_readBinary (b : BinaryFmt) {n : Nat} (hn : 0 < n) : rawBits b (readBinary b n) = n := by
  obtain ⟨k, m, rfl, hk, hm⟩ := exists_scale_significand b n
  rw [readBinary_eq b hk hm.le, rawBits, significand, scaleStep_mul_quantum b (significand_pos_of_bits_pos hn hk) hk hm,
    mul_div_cancel_right₀ _ (quantum_pos b k).ne', roundRat_natCast]

end Sys2Proof.Machine
end

section
/-! SUPPORT. What a legal format owes (R112 (a) to (c)), for binary and for listed formats. -/

namespace Sys2Proof.Machine

/-! ### Rounded values and patterns, kind by kind -/

theorem isPositiveFinite_binary_iff {b : BinaryFmt} {d : BitVec (FloatFmt.binary b).width} :
    isPositiveFinite (.binary b) d = true ↔ 0 < d.toNat ∧ d.toNat < b.infinity := by
  simp only [isPositiveFinite, Bool.and_eq_true, decide_eq_true_eq]

theorem plusZero_binary (b : BinaryFmt) : plusZero (.binary b) = 0 := rfl

theorem floatValue_roundFmt_binary (b : BinaryFmt) {q : Rat} (hq : 0 < q) :
    floatValue (.binary b) (roundFmt (.binary b) q) = readBinary b (clampBinary b (rawBits b q)) := by
  rw [floatValue, roundFmt_binary_toNat b hq]

theorem plusZero_listed_toNat {l : ListedFmt} (h : listedMeetsDuties l = true) :
    (plusZero (.listed l)).toNat = l.zero :=
  Nat.mod_eq_of_lt ((listedMeetsDuties_iff l).mp h).1

theorem roundFmt_listed_toNat {l : ListedFmt} (h : listedMeetsDuties l = true) {q : Rat} (hq : 0 < q) :
    (roundFmt (.listed l) q).toNat = (pickListed l q).bits := by
  obtain ⟨-, hsteps, -⟩ := (listedMeetsDuties_iff l).mp h
  rw [← roundBits_listed_of_pos l hq]
  refine Nat.mod_eq_of_lt ?_
  rw [roundBits_listed_of_pos l hq]
  exact (hsteps _ (pickListed_mem l q)).1

theorem floatValue_roundFmt_listed {l : ListedFmt} (h : listedMeetsDuties l = true) {q : Rat} (hq : 0 < q) :
    floatValue (.listed l) (roundFmt (.listed l) q) = (pickListed l q).value := by
  rw [floatValue, roundFmt_listed_toNat h hq, readListed_of_mem h (pickListed_mem l q)]

/-! ### The duties -/

theorem two_pow_pred_sub_one_pos {s : Nat} (hs : 2 ≤ s) : 0 < 2 ^ (s - 1) - 1 :=
  Nat.sub_pos_of_lt (Nat.one_lt_two_pow (by omega))

theorem mkRat_one_pos {n : Nat} (hn : 0 < n) : 0 < mkRat 1 n := by
  rw [Rat.mkRat_eq_div]
  positivity

/-- R112 (a) to (c) over the ratios of slots of width `s`. -/
structure MeetsR112 (f : FloatFmt) (s : Nat) : Prop where
  zero : floatValue f (plusZero f) = 0
  pos : ∀ q : Rat, mkRat 1 (2 ^ (s - 1) - 1) ≤ q → q ≤ (2 ^ (s - 1) - 1 : Nat) →
    isPositiveFinite f (roundFmt f q) = true ∧ 0 < floatValue f (roundFmt f q) ∧ roundFmt f q ≠ plusZero f
  mono : ∀ q r : Rat, 0 < q → q ≤ r → floatValue f (roundFmt f q) ≤ floatValue f (roundFmt f r)
  exact : ∀ d : BitVec f.width, isPositiveFinite f d = true → floatValue f (roundFmt f (floatValue f d)) = floatValue f d

theorem meetsR112_binary {b : BinaryFmt} {s : Nat} (hs : 2 ≤ s) (h : (FloatFmt.binary b).covers s = true) :
    MeetsR112 (.binary b) s := by
  have hlo : 0 < mkRat 1 (2 ^ (s - 1) - 1) := mkRat_one_pos (two_pow_pred_sub_one_pos hs)
  refine ⟨?zero, fun q hq hq' => ?pos, fun q r hq hqr => ?mono, fun d hd => ?exact⟩
  case zero => simp [floatValue, plusZero_binary, readBinary]
  case pos =>
    obtain ⟨hfirst, hlast⟩ := Bool.and_eq_true_iff.mp h
    have hq0 := hlo.trans_le hq
    rw [isPositiveFinite_binary_iff, roundFmt_binary_toNat b hlo] at hfirst
    rw [isPositiveFinite_binary_iff, roundFmt_binary_toNat b (hq0.trans_le hq')] at hlast
    have hpos : 0 < (roundFmt (.binary b) q).toNat := by
      rw [roundFmt_binary_toNat b hq0]
      exact hfirst.1.trans_le (clampBinary_mono b (rawBits_mono b hlo hq))
    have hfin : (roundFmt (.binary b) q).toNat < b.infinity := by
      rw [roundFmt_binary_toNat b hq0]
      exact (clampBinary_mono b (rawBits_mono b hq0 hq')).trans_lt hlast.2
    refine ⟨isPositiveFinite_binary_iff.mpr ⟨hpos, hfin⟩, readBinary_pos b hpos, fun heq => ?_⟩
    rw [heq, plusZero_binary] at hpos
    simp at hpos
  case mono =>
    rw [floatValue_roundFmt_binary b hq, floatValue_roundFmt_binary b (hq.trans_le hqr)]
    exact readBinary_mono b (clampBinary_mono b (rawBits_mono b hq hqr))
  case exact =>
    obtain ⟨hpos, hfin⟩ := isPositiveFinite_binary_iff.mp hd
    have hval : floatValue (.binary b) d = readBinary b d.toNat := rfl
    rw [hval, floatValue_roundFmt_binary b (readBinary_pos b hpos), rawBits_readBinary b hpos, clampBinary_of_lt hfin]

theorem meetsR112_listed {l : ListedFmt} {s : Nat} (hs : 2 ≤ s) (h : listedMeetsDuties l = true) :
    MeetsR112 (.listed l) s := by
  obtain ⟨-, hsteps, hsorted⟩ := (listedMeetsDuties_iff l).mp h
  refine ⟨?zero, fun q hq _ => ?pos, fun q r hq hqr => ?mono, fun d hd => ?exact⟩
  case zero =>
    have hnone : l.steps.find? (fun t => decide (t.bits = l.zero)) = none := by
      simpa using fun t ht => (hsteps t ht).2.1
    rw [floatValue, plusZero_listed_toNat h, readListed, hnone]
  case pos =>
    have hq0 : 0 < q := (mkRat_one_pos (two_pow_pred_sub_one_pos hs)).trans_le hq
    obtain ⟨-, hne, hv, -⟩ := hsteps _ (pickListed_mem l q)
    refine ⟨?_, ?_, fun heq => hne ?_⟩
    · rw [isPositiveFinite, roundFmt_listed_toNat h hq0]
      exact List.any_eq_true.mpr ⟨_, pickListed_mem l q, decide_eq_true rfl⟩
    · rwa [floatValue_roundFmt_listed h hq0]
    · rw [← roundFmt_listed_toNat h hq0, heq, plusZero_listed_toNat h]
  case mono =>
    rw [floatValue_roundFmt_listed h hq, floatValue_roundFmt_listed h (hq.trans_le hqr)]
    exact climb_value_le hsorted hqr
  case exact =>
    obtain ⟨t, ht, hbits⟩ := List.any_eq_true.mp hd
    obtain ⟨-, -, hv, hexact, -⟩ := hsteps t ht
    have hval : floatValue (.listed l) d = t.value := by
      rw [floatValue, ← of_decide_eq_true hbits, readListed_of_mem h ht]
    rw [hval, floatValue_roundFmt_listed h hv, hexact]

/-- Every legal format meets R112. -/
theorem meetsR112_of_covers {f : FloatFmt} {s : Nat} (hs : 2 ≤ s) (h : f.covers s = true) : MeetsR112 f s := by
  cases f with
  | binary b => exact meetsR112_binary hs h
  | listed l => exact meetsR112_listed hs h

end Sys2Proof.Machine
end

section
/-! SUPPORT. Any rounding that meets R112 as a listed format. Its steps start at the ratios of two slots and at the values
these are rounded to: a set of points that rounding does not leave, so every value is a point that is rounded to itself. -/

namespace Sys2Proof.Machine

section Listing

variable {w : Nat} (round : Rat → BitVec w) (read : BitVec w → Rat)

/-- The step of a rounding that starts at `x`. -/
def stepAt (x : Rat) : RoundStep := { lo := x, value := read (round x), bits := (round x).toNat }

/-- The listed format whose steps start at the points `x :: xs`. -/
def listing (x : Rat) (xs : List Rat) : ListedFmt :=
  { width := w, zero := (round 0).toNat, first := stepAt round read x, rest := xs.map (stepAt round read) }

theorem listing_steps (x : Rat) (xs : List Rat) :
    (listing round read x xs).steps = (x :: xs).map (stepAt round read) := rfl

theorem climb_stepAt {x q : Rat} {xs : List Rat} (h : (x :: xs).Pairwise (· < ·)) (hq : q ∈ x :: xs) :
    climb q (stepAt round read x) (xs.map (stepAt round read)) = stepAt round read q := by
  induction xs generalizing x with
  | nil => rw [List.mem_singleton.mp hq]; rfl
  | cons y ys ih =>
    obtain ⟨hx, hy⟩ := List.pairwise_cons.mp h
    rw [List.map_cons, climb]
    obtain rfl | hq := List.mem_cons.mp hq
    · exact if_neg (not_le.mpr (hx y List.mem_cons_self))
    · have hyq : y ≤ q := by
        obtain rfl | hq := List.mem_cons.mp hq
        · exact le_rfl
        · exact (List.rel_of_pairwise_cons hy hq).le
      exact (if_pos hyq).trans (ih hy hq)

/-- A point falls on the step that starts at it. -/
theorem pickListed_listing {x q : Rat} {xs : List Rat} (h : (x :: xs).Pairwise (· < ·)) (hq : q ∈ x :: xs) :
    pickListed (listing round read x xs) q = stepAt round read q := climb_stepAt round read h hq

variable {round read}

/-- Listing a rounding at positive points that it does not leave gives a legal format. -/
theorem listing_meetsDuties {x : Rat} {xs : List Rat} (hsorted : (x :: xs).Pairwise (· < ·))
    (hzero : read (round 0) = 0)
    (hmono : ∀ q r : Rat, 0 ≤ q → q ≤ r → read (round q) ≤ read (round r))
    (hidem : ∀ q : Rat, 0 ≤ q → read (round (read (round q))) = read (round q))
    (hpos : ∀ y ∈ x :: xs, 0 < y ∧ 0 < read (round y))
    (hclosed : ∀ y ∈ x :: xs, read (round y) ∈ x :: xs) :
    listedMeetsDuties (listing round read x xs) = true := by
  rw [listedMeetsDuties_iff, listing_steps]
  refine ⟨(round 0).isLt, List.forall_mem_map.mpr fun y hy => ?_, List.pairwise_map.mpr ?_⟩
  · obtain ⟨hy0, hv⟩ := hpos y hy
    refine ⟨(round y).isLt, fun heq => ?_, hv, ?_, List.forall_mem_map.mpr fun z _ heq => ?_⟩
    · rw [← BitVec.toNat_inj.mp heq] at hzero
      exact hv.ne' hzero
    · change (pickListed _ (read (round y))).value = read (round y)
      rw [pickListed_listing round read hsorted (hclosed y hy)]
      exact hidem y hy0.le
    · exact congrArg read (BitVec.toNat_inj.mp heq)
  · exact hsorted.imp_of_mem fun {y z} hy _ hlt => hmono y z (hpos y hy).1.le hlt.le

end Listing

/-! ### The ratios of two slots -/

/-- The ratios `a/b` of numbers from 1 to `n`. -/
def slotRatios (n : Nat) : Finset Rat := (Finset.Icc 1 n ×ˢ Finset.Icc 1 n).image fun p => mkRat p.1 p.2

theorem mem_slotRatios {n : Nat} {q : Rat} : q ∈ slotRatios n ↔
    ∃ a b : Nat, 1 ≤ a ∧ a ≤ n ∧ 1 ≤ b ∧ b ≤ n ∧ mkRat a b = q := by
  simp [slotRatios, and_assoc]

theorem slotRatios_range {n : Nat} {q : Rat} (hq : q ∈ slotRatios n) : mkRat 1 n ≤ q ∧ q ≤ n := by
  obtain ⟨a, b, ha, han, hb, hbn, rfl⟩ := mem_slotRatios.mp hq
  have hb0 : (0 : Rat) < b := by exact_mod_cast hb
  have hn0 : (0 : Rat) < n := by exact_mod_cast hb.trans hbn
  rw [Rat.mkRat_eq_div, Rat.mkRat_eq_div, div_le_div_iff₀ hn0 (by exact_mod_cast hb0), div_le_iff₀ hb0]
  constructor <;> norm_cast <;> nlinarith

theorem exists_sorted_list (P : Finset Rat) {y : Rat} (hy : y ∈ P) :
    ∃ x xs, (x :: xs).Pairwise (· < ·) ∧ ∀ q, q ∈ x :: xs ↔ q ∈ P := by
  have hmem : ∀ q, q ∈ P.sort ↔ q ∈ P := fun q => Finset.mem_sort _
  have hsorted : P.sort.Pairwise (· < ·) := P.sortedLT_sort.pairwise
  cases hP : P.sort with
  | nil => exact absurd ((hmem y).mpr hy) (by simp [hP])
  | cons x xs => exact ⟨x, xs, hP ▸ hsorted, hP ▸ hmem⟩

/-- Any rounding that meets R112 agrees with a legal listed format on the ratios of two slots. -/
theorem exists_listed_of_meets {w n : Nat} {round : Rat → BitVec w} {read : BitVec w → Rat} (hn : 0 < n)
    (hzero : read (round 0) = 0)
    (hpos : ∀ q : Rat, mkRat 1 n ≤ q → q ≤ n → 0 < read (round q))
    (hmono : ∀ q r : Rat, 0 ≤ q → q ≤ r → read (round q) ≤ read (round r))
    (hidem : ∀ q : Rat, 0 ≤ q → read (round (read (round q))) = read (round q)) :
    ∃ l : ListedFmt, l.width = w ∧ listedMeetsDuties l = true ∧ l.zero = (round 0).toNat ∧
      ∀ q ∈ slotRatios n, (pickListed l q).bits = (round q).toNat := by
  obtain ⟨x, xs, hsorted, hmem⟩ := exists_sorted_list
    (slotRatios n ∪ (slotRatios n).image fun q => read (round q))
    (Finset.mem_union_left _ (mem_slotRatios.mpr ⟨1, 1, le_rfl, hn, le_rfl, hn, rfl⟩))
  simp only [Finset.mem_union, Finset.mem_image] at hmem
  have hratio : ∀ q ∈ slotRatios n, 0 < q ∧ 0 < read (round q) := fun q hq => by
    obtain ⟨hge, hle⟩ := slotRatios_range hq
    exact ⟨(mkRat_one_pos hn).trans_le hge, hpos q hge hle⟩
  have hpoint : ∀ y ∈ x :: xs, 0 < y ∧ 0 < read (round y) := fun y hy => by
    obtain hy | ⟨q, hq, rfl⟩ := (hmem y).mp hy
    · exact hratio y hy
    · obtain ⟨hq0, hv⟩ := hratio q hq
      rw [hidem q hq0.le]
      exact ⟨hv, hv⟩
  have hclosed : ∀ y ∈ x :: xs, read (round y) ∈ x :: xs := fun y hy => by
    obtain hy | ⟨q, hq, rfl⟩ := (hmem y).mp hy
    · exact (hmem _).mpr (.inr ⟨y, hy, rfl⟩)
    · rwa [hidem q (hratio q hq).1.le]
  refine ⟨listing round read x xs, rfl, listing_meetsDuties hsorted hzero hmono hidem hpoint hclosed, rfl,
    fun q hq => ?_⟩
  rw [pickListed_listing round read hsorted ((hmem q).mpr (.inl hq))]
  rfl

/-- Settles O37: every legal format meets R112, a binary one because its patterns are scale and significand, which keep the
order; and any rounding that meets R112 is listed at the ratios of two slots and the values they are rounded to. -/
theorem floatFormatsAreThoseOfR112 : Obligations.FloatFormatsAreThoseOfR112 := by
  refine ⟨plusZero_binary, fun c => ?_, fun s w round read hs hzero hpos hmono hidem => ?_⟩
  · obtain ⟨hzero, hpos, hmono, hexact⟩ := meetsR112_of_covers c.s_ge c.fmt_ok
    exact ⟨hzero, hpos, fun q r hq hqr _ => hmono q r ((mkRat_one_pos (vmax_pos c)).trans_le hq) hqr, hexact⟩
  · have hn := two_pow_pred_sub_one_pos hs
    obtain ⟨l, hw, hl, hz, hbits⟩ := exists_listed_of_meets hn hzero hpos hmono hidem
    refine ⟨.listed l, hw, hl, by rw [plusZero_listed_toNat hl, hz], fun a b ha han hb hbn => ?_⟩
    have hq := mem_slotRatios.mpr ⟨a, b, ha, han, hb, hbn, rfl⟩
    rw [roundFmt_listed_toNat hl ((mkRat_one_pos hn).trans_le (slotRatios_range hq).1), hbits _ hq]

end Sys2Proof.Machine
end

section
/-! SUPPORT. What a decoded word is: its fields make it up, so it is the encoding of its command (R61). -/

namespace Sys2Proof

theorem fields_append (w : CmdWord) : (opField w ++ aField w) ++ bField w = w := by
  refine BitVec.eq_of_getLsbD_eq fun i hi => ?_
  refine (getLsbD_fields (opField w) (aField w) (bField w) i).trans ?_
  simp only [opField, aField, bField, BitVec.getLsbD_extractLsb']
  split_ifs with hb ha
  · simp [hb]
  · simp [ha, show 6 + (i - 6) = i by omega]
  · simp [show i - 6 - 6 < 4 by omega, show 12 + (i - 6 - 6) = i by omega]

/-- Every word the decoder takes is the encoding of a command whose slots exist. -/
theorem encode_of_decode {c : Config} {w : CmdWord} {i : Instr} (h : decode c w = .ok i) :
    encode i = w ∧ i.wf c = true := by
  have hw := fields_append w
  unfold decode at h
  split_ifs at h with hop hb ha hop' hab
  · cases h
    rw [hop, hb] at hw
    exact ⟨hw, decide_eq_true ha⟩
  · cases h
    rw [hop'] at hw
    exact ⟨hw, by simp [Instr.wf, hab]⟩

theorem Instr.wf_inc_iff {c : Config} {k : SlotIx} : (Instr.inc k).wf c = true ↔ k.toNat < c.n := by
  simp [Instr.wf]

theorem Instr.wf_ratio_iff {c : Config} {a b : SlotIx} :
    (Instr.ratio a b).wf c = true ↔ a.toNat < c.n ∧ b.toNat < c.n := by
  simp [Instr.wf]

end Sys2Proof
end

section
/-! SUPPORT. The masks bit by bit (R22 to R24), well-formed values as numbers and bits (R17, R18), and what `NEXT` keeps of
them (R79, R80). -/

namespace Sys2Proof.Machine

variable {c : Config}

/-! ### The masks -/

theorem unit_getLsbD (c : Config) (k : Nat) {i : Nat} (hi : i < c.w) : (unit c k).getLsbD i = decide (i = off c k) := by
  rw [unit, BitVec.getLsbD_shiftLeft, BitVec.getLsbD_one]
  by_cases h : i = off c k <;> simp [hi, h] <;> omega

theorem sentMask_getLsbD_iff (c : Config) (i : Nat) :
    (sentMask c).getLsbD i = true ↔ ∃ k, k < c.n ∧ i = sentPos c k := by
  rw [sentMask, sentMaskBelow_getLsbD, Bool.and_eq_true, decide_eq_true_eq, decide_eq_true_eq, and_iff_right_iff_imp]
  rintro ⟨k, hk, rfl⟩
  exact sentPos_lt c hk

theorem sentPos_eq (c : Config) (k : Nat) : sentPos c k = k * c.s + c.s - 1 :=
  (Nat.add_sub_assoc (Nat.one_le_of_lt c.s_ge) _).symm

theorem keepMask_getLsbD (c : Config) {i : Nat} (hi : i < c.w) :
    (keepMask c).getLsbD i = !(sentMask c).getLsbD i := by
  simp [keepMask, hi]

/-- The constants of CFG32 that R22 to R25 list. -/
theorem shipped32_constants :
    (sentMask Config.shipped32).toNat = 0x80008000 ∧ (keepMask Config.shipped32).toNat = 0x7FFF7FFF ∧
    (unit Config.shipped32 0).toNat = 0x00000001 ∧ (unit Config.shipped32 1).toNat = 0x00010000 ∧
    usable Config.shipped32 = 15 ∧ vmax Config.shipped32 = 0x7FFF := by decide

/-- The constants of CFG64 that R22 to R25 list. -/
theorem shipped64_constants :
    (sentMask Config.shipped64).toNat = 0x8000800080008000 ∧ (keepMask Config.shipped64).toNat = 0x7FFF7FFF7FFF7FFF ∧
    (unit Config.shipped64 0).toNat = 0x0000000000000001 ∧ (unit Config.shipped64 1).toNat = 0x0000000000010000 ∧
    (unit Config.shipped64 2).toNat = 0x0000000100000000 ∧ (unit Config.shipped64 3).toNat = 0x0001000000000000 ∧
    usable Config.shipped64 = 15 ∧ vmax Config.shipped64 = 0x7FFF := by decide

/-- Settles O6: each mask bit by bit, and the shipped constants computed. -/
theorem masksAreTheUnionOfTheSlots : Obligations.MasksAreTheUnionOfTheSlots := by
  refine ⟨fun c k i _ hi => ?unit, fun c i => ?sentMask, fun c i hi => keepMask_getLsbD c hi, ?constants⟩
  case unit => rw [unit_getLsbD c k hi, decide_eq_true_eq, off]
  case sentMask => simp only [sentMask_getLsbD_iff, sentPos_eq]
  case constants =>
    obtain ⟨s32, k32, u0, u1, w32, v32⟩ := shipped32_constants
    exact ⟨s32, k32, u0, u1, w32, v32, shipped64_constants⟩

/-! ### Well-formed values -/

/-- `I1` bit by bit: no slot has its sentinel set. -/
theorem I1_iff {v : BitVec c.w} : I1 c v = true ↔ ∀ k, k < c.n → sent c v k = false := by
  simp only [I1, decide_eq_true_eq, sent]
  constructor
  · intro h k hk
    have hbit := congrArg (fun x => x.getLsbD (sentPos c k)) h
    simpa [(sentMask_getLsbD_iff c _).mpr ⟨k, hk, rfl⟩] using hbit
  · intro h
    refine BitVec.eq_of_getLsbD_eq fun i _ => ?_
    rw [BitVec.getLsbD_and, BitVec.getLsbD_zero, Bool.and_eq_false_iff, or_iff_not_imp_right, Bool.not_eq_false,
      sentMask_getLsbD_iff]
    rintro ⟨k, hk, rfl⟩
    exact h k hk

theorem slackZero_iff {v : BitVec c.w} : slackZero c v = true ↔ v.toNat < 2 ^ (c.n * c.s) := by
  rw [slackZero, decide_eq_true_eq, ← BitVec.toNat_inj, BitVec.toNat_ushiftRight, Nat.shiftRight_eq_div_pow,
    BitVec.toNat_ofNat, Nat.zero_mod, Nat.div_eq_zero_iff_lt (Nat.two_pow_pos _)]

theorem WF_iff {v : BitVec c.w} :
    WF c v = true ↔ (∀ k, k < c.n → sent c v k = false) ∧ v.toNat < 2 ^ (c.n * c.s) := by
  rw [WF, Bool.and_eq_true, I1_iff, slackZero_iff]

theorem WF_zero (c : Config) : WF c 0 = true :=
  WF_iff.mpr ⟨fun k _ => by simp [sent], by simp⟩

theorem sentPos_pred_n_add_one (c : Config) : sentPos c (c.n - 1) + 1 = c.n * c.s := by
  have h : (c.n - 1) * c.s + c.s = c.n * c.s := by rw [← Nat.succ_mul, Nat.succ_eq_add_one, Nat.sub_add_cancel c.n_pos]
  have := c.s_ge
  rw [sentPos_eq]
  omega

/-- The sentinel of the highest slot is the highest used bit, so a well-formed value leaves half the used range free. -/
theorem toNat_lt_of_WF {v : BitVec c.w} (h : WF c v = true) : v.toNat < 2 ^ sentPos c (c.n - 1) := by
  obtain ⟨hsent, hlt⟩ := WF_iff.mp h
  have htop := sentPos_pred_n_add_one c
  refine Nat.lt_pow_two_of_testBit _ fun i hi => ?_
  obtain rfl | hi := Nat.eq_or_lt_of_le hi
  · exact hsent _ (Nat.sub_one_lt_of_lt c.n_pos)
  · exact Nat.testBit_lt_two_pow (hlt.trans_le (Nat.pow_le_pow_right (by decide) (by omega)))

/-! ### What `NEXT` keeps -/

theorem off_lt_sentPos_pred_n (c : Config) {k : Nat} (h : k < c.n) : off c k < sentPos c (c.n - 1) := by
  have hle : off c k ≤ off c (c.n - 1) := Nat.mul_le_mul_right _ (Nat.le_sub_one_of_lt h)
  have := c.s_ge
  unfold sentPos
  omega

/-- The sum of a well-formed value stays inside the slots, as a number. -/
theorem add_unit_lt_of_WF {v : BitVec c.w} (h : WF c v = true) {k : Nat} (hk : k < c.n) :
    v.toNat + (unit c k).toNat < 2 ^ (c.n * c.s) := by
  have hv := toNat_lt_of_WF h
  have hu : 2 ^ off c k < 2 ^ sentPos c (c.n - 1) := Nat.pow_lt_pow_right (by decide) (off_lt_sentPos_pred_n c hk)
  rw [unit_toNat c hk, ← sentPos_pred_n_add_one, Nat.pow_succ]
  omega

theorem sum_toNat_of_WF {v : BitVec c.w} (h : WF c v = true) {k : Nat} (hk : k < c.n) :
    (sum c v k).toNat = v.toNat + (unit c k).toNat := by
  rw [sum, BitVec.toNat_add]
  exact Nat.mod_eq_of_lt ((add_unit_lt_of_WF h hk).trans_le (Nat.pow_le_pow_right (by decide) c.fits))

theorem decayed_toNat_le (v : BitVec c.w) (k : Nat) : (decayed c v k).toNat ≤ (sum c v k).toNat := by
  rw [decayed, BitVec.toNat_and, BitVec.toNat_ushiftRight, Nat.shiftRight_eq_div_pow]
  exact Nat.and_le_left.trans (Nat.div_le_self _ _)

theorem nextValue_toNat_le (v : BitVec c.w) (k : Nat) : (nextValue c v k).toNat ≤ (sum c v k).toNat := by
  cases h : ovf c v k
  · rw [nextValue_of_not_ovf h]
  · rw [nextValue_of_ovf h]
    exact decayed_toNat_le v k

/-- R79: the sum is kept only when it has no sentinel, and the decay clears them. -/
theorem I1_nextValue (v : BitVec c.w) (k : Nat) : I1 c (nextValue c v k) = true := by
  cases h : ovf c v k
  · rw [nextValue_of_not_ovf h, I1]
    simpa [ovf] using h
  · rw [nextValue_of_ovf h, I1, decayed, keepMask, BitVec.and_assoc]
    simp

theorem slackZero_nextValue {v : BitVec c.w} (h : WF c v = true) {k : Nat} (hk : k < c.n) :
    slackZero c (nextValue c v k) = true := by
  rw [slackZero_iff]
  calc (nextValue c v k).toNat ≤ (sum c v k).toNat := nextValue_toNat_le v k
    _ = v.toNat + (unit c k).toNat := sum_toNat_of_WF h hk
    _ < 2 ^ (c.n * c.s) := add_unit_lt_of_WF h hk

/-- R80: `NEXT` of an existing slot keeps values well formed. -/
theorem WF_nextValue {v : BitVec c.w} (h : WF c v = true) {k : Nat} (hk : k < c.n) : WF c (nextValue c v k) = true :=
  Bool.and_eq_true_iff.mpr ⟨I1_nextValue v k, slackZero_nextValue h hk⟩

end Sys2Proof.Machine
end

section
/-! SUPPORT. Responses of the ratio query (R114): `+0` when a slot is zero, else a positive finite number. -/

namespace Sys2Proof.Machine

variable {c : Config}

theorem ratioQ_of_value_eq_zero {v : BitVec c.w} {a b : Nat} (h : value c v a = 0 ∨ value c v b = 0) :
    ratioQ c v a b = 0 := by
  obtain h | h := h <;> simp [ratioQ, h]

theorem ratioQ_mem_slotRatios {v : BitVec c.w} {a b : Nat} (ha : value c v a ≠ 0) (hb : value c v b ≠ 0) :
    ratioQ c v a b ∈ slotRatios (vmax c) :=
  mem_slotRatios.mpr ⟨value c v a, value c v b, Nat.one_le_iff_ne_zero.mpr ha, value_le_vmax c v a,
    Nat.one_le_iff_ne_zero.mpr hb, value_le_vmax c v b, (if_neg hb).symm⟩

/-- R114, of any register value: the bounds come from the width of a slot alone. -/
theorem ratioData_cases (v : BitVec c.w) (a b : Nat) :
    ratioData c v a b = plusZero c.fmt ∨ isPositiveFinite c.fmt (ratioData c v a b) = true := by
  by_cases h : value c v a = 0 ∨ value c v b = 0
  · exact .inl (congrArg (roundFmt c.fmt) (ratioQ_of_value_eq_zero h))
  · obtain ⟨ha, hb⟩ := not_or.mp h
    obtain ⟨hge, hle⟩ := slotRatios_range (ratioQ_mem_slotRatios ha hb)
    exact .inr ((meetsR112_of_covers c.s_ge c.fmt_ok).pos _ hge hle).1

theorem Response.sound_ratioData (v : BitVec c.w) (a b : Nat) :
    Response.sound (c := c) ⟨.ok, ratioData c v a b⟩ = true := by
  obtain h | h := ratioData_cases v a b <;> simp [Response.sound, h]

theorem Response.sound_zero (st : Status) : Response.sound (c := c) ⟨st, 0⟩ = true := by
  cases st <;> simp [Response.sound]

end Sys2Proof.Machine
end

section
/-! SUPPORT. The command a busy port holds and the step it takes for it; every step of the machine is one of the spec's, or
passes (R135). -/

namespace Sys2Proof.Machine

variable {c : Config}

/-! ### The held command -/

theorem heldInstr_of_inc {x : Port c} (h : x.ph = .incLoad ∨ x.ph = .incCas) : heldInstr x = some (.inc x.opa) := by
  obtain h | h := h <;> simp [heldInstr, h]

theorem heldInstr_of_ratio {x : Port c} (h : x.ph = .ratioLoad) : heldInstr x = some (.ratio x.opa x.opb) := by
  simp [heldInstr, h]

theorem portTurn_of_held {e : Engine c} {p : Fin c.p} {i : Instr} (h : heldInstr (e.port p) = some i) (v : Env c) :
    portTurn e v p = exec i ⟨c, e, { v with act := p }⟩ := by
  simp only [portTurn, h]

/-- Settles O46: the turn drawn is the port's, and its phase and operand latches give the command. -/
theorem stepRunsTheHeldCommand : Obligations.StepRunsTheHeldCommand := by
  intro c e v v' p hdraw
  rw [step_port hdraw]
  exact ⟨fun h => portTurn_of_held (heldInstr_of_inc h) v', fun h => portTurn_of_held (heldInstr_of_ratio h) v'⟩

/-! ### The step of a command, by the port's phase -/

theorem incStep_of_idle {e : Engine c} {p : Fin c.p} {k : SlotIx} (h : (e.port p).ph = .idle) (hk : k.toNat < c.n) :
    incStep e p k = incAccept e p k := by
  simp [incStep, h, hk]

theorem incStep_of_incLoad {e : Engine c} {p : Fin c.p} (h : (e.port p).ph = .incLoad) :
    incStep e p (e.port p).opa = incLoad e p := by
  simp [incStep, h]

theorem incStep_of_incCas {e : Engine c} {p : Fin c.p} (h : (e.port p).ph = .incCas) :
    incStep e p (e.port p).opa = incCas e p := by
  simp [incStep, h]

theorem ratioStep_of_idle {e : Engine c} {p : Fin c.p} {a b : SlotIx} (h : (e.port p).ph = .idle)
    (hab : a.toNat < c.n ∧ b.toNat < c.n) : ratioStep e p a b = ratioAccept e p a b := by
  simp [ratioStep, h, hab]

theorem ratioStep_of_ratioLoad {e : Engine c} {p : Fin c.p} (h : (e.port p).ph = .ratioLoad) :
    ratioStep e p (e.port p).opa (e.port p).opb = ratioLoad e p := by
  simp [ratioStep, h]

/-! ### The machine's steps as the spec's -/

/-- The outcome is a next state of the same configuration, and its engine is `e` still or one step of the spec's relation
further. -/
def LeadsToSpecStep (e : Engine c) (o : Host.Outcome State Fault Refusal) : Prop :=
  ∃ (e' : Engine c) (v' : Env c), o = .next ⟨c, e', v'⟩ ∧ (e' = e ∨ SpecStep e e')

theorem LeadsToSpecStep.pass (e : Engine c) (v : Env c) : LeadsToSpecStep e (.next ⟨c, e, v⟩) :=
  ⟨e, v, rfl, .inl rfl⟩

theorem LeadsToSpecStep.of_specStep {e e' : Engine c} (h : SpecStep e e') (v : Env c) :
    LeadsToSpecStep e (.next ⟨c, e', v⟩) :=
  ⟨e', v, rfl, .inr h⟩

theorem specStep_incAccept {e : Engine c} {p : Fin c.p} {k : SlotIx} (hidle : (e.port p).ph = .idle)
    (hw : decode c (encode (.inc k)) = .ok (.inc k)) : SpecStep e (incAccept e p k) :=
  .acceptInc e p _ k hidle hw

theorem specStep_ratioAccept {e : Engine c} {p : Fin c.p} {a b : SlotIx} (hidle : (e.port p).ph = .idle)
    (hw : decode c (encode (.ratio a b)) = .ok (.ratio a b)) : SpecStep e (ratioAccept e p a b) :=
  .acceptRatio e p _ a b hidle hw

theorem specStep_incCas {e : Engine c} {p : Fin c.p} (h : (e.port p).ph = .incCas) : SpecStep e (incCas e p) := by
  by_cases hcur : e.reg = (e.port p).cur
  · rw [incCas_of_current e p hcur]
    exact .casOk e p h hcur
  · rw [incCas_of_stale e p hcur]
    exact .casFail e p h hcur

/-- A decoded command at an idle port is accepted. -/
theorem exec_leadsToSpecStep_of_idle {e : Engine c} {v : Env c} {w : CmdWord} {i : Instr} (hidle : (e.port v.act).ph = .idle)
    (hw : decode c w = .ok i) : LeadsToSpecStep e (exec i ⟨c, e, v⟩) := by
  obtain ⟨rfl, hwf⟩ := encode_of_decode hw
  cases i with
  | inc k =>
    rw [exec_inc, incStep_of_idle hidle (Instr.wf_inc_iff.mp hwf)]
    exact .of_specStep (specStep_incAccept hidle hw) v
  | ratio a b =>
    rw [exec_ratio, ratioStep_of_idle hidle (Instr.wf_ratio_iff.mp hwf)]
    exact .of_specStep (specStep_ratioAccept hidle hw) v

theorem presentWord_leadsToSpecStep (e : Engine c) (v : Env c) (p : Fin c.p) :
    LeadsToSpecStep e (presentWord e v p) := by
  obtain ⟨w, i, hidle, -, hw, h⟩ | ⟨w, why, hidle, -, hw, h⟩ | ⟨-, h⟩ := presentWord_cases e v p <;> rw [h]
  · exact exec_leadsToSpecStep_of_idle hidle hw
  · exact .of_specStep (.acceptIllegal e p w why hidle hw) _
  · exact .pass e _

theorem portTurn_leadsToSpecStep (e : Engine c) (v : Env c) (p : Fin c.p) : LeadsToSpecStep e (portTurn e v p) := by
  obtain ⟨hph | hph, h⟩ | ⟨hph, h⟩ | ⟨hph, h⟩ | ⟨-, h⟩ := portTurn_cases e v p <;> rw [h]
  · rw [exec_inc, incStep_of_incLoad hph]
    exact .of_specStep (.iload e p hph) _
  · rw [exec_inc, incStep_of_incCas hph]
    exact .of_specStep (specStep_incCas hph) _
  · rw [exec_ratio, ratioStep_of_ratioLoad hph]
    exact .of_specStep (.rload e p hph) _
  · exact .of_specStep (.complete e p hph) _
  · exact .pass e _

theorem specStep_atReset (e : Engine c) : SpecStep e (Engine.atReset c) :=
  .reset e _ rfl (fun p => by simp) rfl

/-- R135: what every step does to the engine, whatever turn is drawn. -/
theorem step_leadsToSpecStep (e : Engine c) (v : Env c) : LeadsToSpecStep e (step ⟨c, e, v⟩) := by
  obtain ⟨-, h⟩ | ⟨p, -, h⟩ | ⟨p, -, h⟩ | ⟨-, h⟩ := step_cases e v <;> rw [h]
  · exact .pass e _
  · exact presentWord_leadsToSpecStep e _ p
  · exact portTurn_leadsToSpecStep e _ p
  · exact .of_specStep (specStep_atReset e) _

end Sys2Proof.Machine
end

section
/-! SUPPORT. The invariants of the engine hold after reset (R33), and every step of the spec keeps it sound (R18, R29, R87,
R114). -/

namespace Sys2Proof.Machine

variable {c : Config}

/-! ### Reset -/

theorem Port.sound_of_idle {x : Port c} (h : x.ph = .idle) : x.sound = true := by
  simp [Port.sound, h]

theorem sound_of_reset {e : Engine c} (hreg : e.reg = 0) (hidle : ∀ p : Fin c.p, (e.port p).ph = .idle) : e.Sound :=
  ⟨hreg ▸ WF_zero c, fun p => Port.sound_of_idle (hidle p)⟩

theorem sound_atReset (c : Config) : (Engine.atReset c).Sound := sound_of_reset rfl fun p => by simp

theorem explained_atReset (c : Config) : (Engine.atReset c).Explained := by
  refine ⟨rfl, by simp, rfl, fun p => ?_⟩
  rw [Engine.atReset_port]
  rfl

/-- Settles O50: the register is zero, every port idle and the history one `Reset`. -/
theorem resetIsSoundAndExplained : Obligations.ResetIsSoundAndExplained :=
  ⟨fun c => ⟨sound_atReset c, explained_atReset c⟩, sound_atReset Config.atReset⟩

/-! ### Soundness of a port, phase by phase -/

theorem Port.sound_iff_of_incLoad {x : Port c} (h : x.ph = .incLoad) : x.sound = true ↔ x.opa.toNat < c.n := by
  simp [Port.sound, h]

theorem Port.sound_iff_of_incCas {x : Port c} (h : x.ph = .incCas) :
    x.sound = true ↔ x.opa.toNat < c.n ∧ WF c x.cur = true := by
  simp [Port.sound, h]

theorem Port.sound_iff_of_ratioLoad {x : Port c} (h : x.ph = .ratioLoad) :
    x.sound = true ↔ x.opa.toNat < c.n ∧ x.opb.toNat < c.n := by
  simp [Port.sound, h]

theorem Port.sound_iff_of_done {x : Port c} (h : x.ph = .done) : x.sound = true ↔ x.rsp.sound = true := by
  simp [Port.sound, h]

/-! ### Every step keeps the engine sound -/

/-- Replacing the register by a well-formed value and one port by a sound one. -/
theorem Engine.Sound.update {e : Engine c} (h : e.Sound) {r : BitVec c.w} (hr : WF c r = true) (p : Fin c.p) {x : Port c}
    (hx : x.sound = true) (evs : List (Event c)) : Engine.Sound ⟨r, e.ports.set p.val x p.isLt, evs⟩ := by
  refine ⟨hr, fun q => ?_⟩
  rw [Engine.port_mk_set]
  split
  · exact hx
  · exact h.2 q

theorem Engine.Sound.specStep {e e' : Engine c} (h : e.Sound) (hs : SpecStep e e') : e'.Sound := by
  have hreg : WF c e.reg = true := h.1
  have hport : ∀ p, (e.port p).sound = true := h.2
  cases hs with
  | acceptInc p w k _ word =>
    have hk := Instr.wf_inc_iff.mp (encode_of_decode word).2
    exact h.update hreg p ((Port.sound_iff_of_incLoad rfl).mpr hk) _
  | acceptRatio p w a b _ word =>
    have hab := Instr.wf_ratio_iff.mp (encode_of_decode word).2
    exact h.update hreg p ((Port.sound_iff_of_ratioLoad rfl).mpr hab) _
  | acceptIllegal p => exact h.update hreg p ((Port.sound_iff_of_done rfl).mpr (Response.sound_zero _)) _
  | iload p phase =>
    have hopa := (Port.sound_iff_of_incLoad phase).mp (hport p)
    refine h.update hreg p ((Port.sound_iff_of_incCas rfl).mpr ?_) _
    exact ⟨hopa, hreg⟩
  | casOk p phase =>
    obtain ⟨hopa, hcur⟩ := (Port.sound_iff_of_incCas phase).mp (hport p)
    exact h.update (WF_nextValue hcur hopa) p ((Port.sound_iff_of_done rfl).mpr (Response.sound_zero _)) _
  | casFail p phase =>
    obtain ⟨hopa, -⟩ := (Port.sound_iff_of_incCas phase).mp (hport p)
    refine h.update hreg p ((Port.sound_iff_of_incLoad rfl).mpr ?_) _
    exact hopa
  | rload p => exact h.update hreg p ((Port.sound_iff_of_done rfl).mpr (Response.sound_ratioData _ _ _)) _
  | complete p => exact h.update hreg p (Port.sound_of_idle rfl) _
  | reset _ zero idle => exact sound_of_reset zero idle

/-- Settles O51: a step is one of the spec's or passes, and each row of the spec's relation keeps the engine sound. -/
theorem stepKeepsTheEngineSound : Obligations.StepKeepsTheEngineSound := by
  rintro ⟨c, e, v⟩ s' hsound hstep
  obtain ⟨e', v', hnext, rfl | hspec⟩ := step_leadsToSpecStep e v <;> cases hnext.symm.trans hstep
  · exact hsound
  · exact hsound.specStep hspec

end Sys2Proof.Machine
end

section
/-! SUPPORT. Live latches (R29): engines that agree on them take the same turns and the same steps. What of a port is live is
its progress, so agreement is stated by progress here. -/

namespace Sys2Proof.Machine

variable {c : Config}

/-! ### The live part of a port -/

theorem Port.progress_of_idle {x : Port c} (h : x.ph = .idle) : x.progress = .idle := by simp [Port.progress, h]

theorem Port.progress_of_incLoad {x : Port c} (h : x.ph = .incLoad) : x.progress = .incLoad x.opa := by
  simp [Port.progress, h]

theorem Port.progress_of_incCas {x : Port c} (h : x.ph = .incCas) : x.progress = .incCas x.opa x.cur := by
  simp [Port.progress, h]

theorem Port.progress_of_ratioLoad {x : Port c} (h : x.ph = .ratioLoad) : x.progress = .ratioLoad x.opa x.opb := by
  simp [Port.progress, h]

theorem Port.progress_of_done {x : Port c} (h : x.ph = .done) : x.progress = .done x.rsp := by simp [Port.progress, h]

/-- The port in some progress whose dead latches are zero. -/
def Progress.toPort : Progress c → Port c
  | .idle => Port.atReset c
  | .incLoad k => { Port.atReset c with ph := .incLoad, opa := k }
  | .incCas k v => { Port.atReset c with ph := .incCas, opa := k, cur := v }
  | .ratioLoad a b => { Port.atReset c with ph := .ratioLoad, opa := a, opb := b }
  | .done r => { Port.atReset c with ph := .done, rsp := r }

theorem Progress.progress_toPort (m : Progress c) : m.toPort.progress = m := by cases m <;> rfl

theorem Port.scrub_eq_toPort (x : Port c) : x.scrub = x.progress.toPort := by
  cases h : x.ph <;> simp [Port.scrub, Port.progress, Progress.toPort, Port.atReset, h]

theorem Port.scrub_eq_scrub_iff {x y : Port c} : x.scrub = y.scrub ↔ x.progress = y.progress := by
  rw [Port.scrub_eq_toPort, Port.scrub_eq_toPort]
  exact (Function.LeftInverse.injective Progress.progress_toPort).eq_iff

theorem Port.ph_toPort_progress (x : Port c) : x.progress.toPort.ph = x.ph := by
  cases h : x.ph <;> simp [Port.progress, Progress.toPort, h]

theorem Port.ph_eq_of_progress_eq {x y : Port c} (h : x.progress = y.progress) : x.ph = y.ph := by
  rw [← x.ph_toPort_progress, h, y.ph_toPort_progress]

/-! ### Agreeing engines -/

theorem Engine.agrees_iff {e f : Engine c} :
    e.Agrees f ↔ e.reg = f.reg ∧ e.hist = f.hist ∧ ∀ p, (e.port p).progress = (f.port p).progress := by
  simp only [Engine.Agrees, Port.scrub_eq_scrub_iff]

theorem Engine.Agrees.refl (e : Engine c) : e.Agrees e := ⟨rfl, rfl, fun _ => rfl⟩

/-- Replacing the register by one value, one port by ports in the same progress, and recording one event. -/
theorem Engine.Agrees.update {e f : Engine c} (h : e.Agrees f) (r : BitVec c.w) (p : Fin c.p) {x y : Port c}
    (hxy : x.progress = y.progress) (ev : Event c) :
    Engine.Agrees ⟨r, e.ports.set p.val x p.isLt, e.hist ++ [ev]⟩
      ⟨r, f.ports.set p.val y p.isLt, f.hist ++ [ev]⟩ := by
  obtain ⟨-, hhist, hport⟩ := Engine.agrees_iff.mp h
  refine Engine.agrees_iff.mpr ⟨rfl, congrArg (· ++ [ev]) hhist, fun q => ?_⟩
  rw [Engine.port_mk_set, Engine.port_mk_set]
  split
  · exact hxy
  · exact hport q

section Steps

variable {e f : Engine c} (h : e.Agrees f) (p : Fin c.p)
include h

theorem Engine.Agrees.reg_eq : e.reg = f.reg := h.1

theorem Engine.Agrees.progress_eq : (e.port p).progress = (f.port p).progress := (Engine.agrees_iff.mp h).2.2 p

theorem Engine.Agrees.ph_eq : (e.port p).ph = (f.port p).ph := Port.ph_eq_of_progress_eq (h.progress_eq p)

/-! ### Equal live latches, phase by phase -/

theorem Engine.Agrees.live_incLoad (hph : (e.port p).ph = .incLoad) : (e.port p).opa = (f.port p).opa := by
  have hp := h.progress_eq p
  rw [Port.progress_of_incLoad hph, Port.progress_of_incLoad (h.ph_eq p ▸ hph)] at hp
  exact Progress.incLoad.inj hp

theorem Engine.Agrees.live_incCas (hph : (e.port p).ph = .incCas) :
    (e.port p).opa = (f.port p).opa ∧ (e.port p).cur = (f.port p).cur := by
  have hp := h.progress_eq p
  rw [Port.progress_of_incCas hph, Port.progress_of_incCas (h.ph_eq p ▸ hph)] at hp
  exact Progress.incCas.inj hp

theorem Engine.Agrees.live_ratioLoad (hph : (e.port p).ph = .ratioLoad) :
    (e.port p).opa = (f.port p).opa ∧ (e.port p).opb = (f.port p).opb := by
  have hp := h.progress_eq p
  rw [Port.progress_of_ratioLoad hph, Port.progress_of_ratioLoad (h.ph_eq p ▸ hph)] at hp
  exact Progress.ratioLoad.inj hp

theorem Engine.Agrees.live_done (hph : (e.port p).ph = .done) : (e.port p).rsp = (f.port p).rsp := by
  have hp := h.progress_eq p
  rw [Port.progress_of_done hph, Port.progress_of_done (h.ph_eq p ▸ hph)] at hp
  exact Progress.done.inj hp

/-! ### The steps of agreeing engines -/

theorem raiseIllegal_agree (w : CmdWord) : (raiseIllegal e p w).Agrees (raiseIllegal f p w) := by
  rw [raiseIllegal_eq, raiseIllegal_eq, h.reg_eq]
  refine h.update _ p ?_ _
  rfl

theorem complete_agree (hph : (e.port p).ph = .done) : (complete e p).Agrees (complete f p) := by
  rw [complete_eq, complete_eq, h.reg_eq, h.live_done p hph]
  refine h.update _ p ?_ _
  rfl

theorem incAccept_agree (k : SlotIx) : (incAccept e p k).Agrees (incAccept f p k) := by
  rw [incAccept_eq, incAccept_eq, h.reg_eq]
  refine h.update _ p ?_ _
  rfl

theorem incLoad_agree (hph : (e.port p).ph = .incLoad) : (incLoad e p).Agrees (incLoad f p) := by
  rw [incLoad_eq, incLoad_eq, h.reg_eq]
  refine h.update _ p ?_ _
  exact congrArg (Progress.incCas · f.reg) (h.live_incLoad p hph)

theorem incCas_agree (hph : (e.port p).ph = .incCas) : (incCas e p).Agrees (incCas f p) := by
  obtain ⟨hopa, hcur⟩ := h.live_incCas p hph
  by_cases hc : e.reg = (e.port p).cur
  · rw [incCas_of_current e p hc, incCas_of_current f p (h.reg_eq ▸ hcur ▸ hc), h.reg_eq, hopa, hcur]
    refine h.update _ p ?_ _
    rfl
  · rw [incCas_of_stale e p hc, incCas_of_stale f p (h.reg_eq ▸ hcur ▸ hc), h.reg_eq, hcur]
    refine h.update _ p ?_ _
    exact congrArg Progress.incLoad hopa

theorem ratioAccept_agree (a b : SlotIx) : (ratioAccept e p a b).Agrees (ratioAccept f p a b) := by
  rw [ratioAccept_eq, ratioAccept_eq, h.reg_eq]
  refine h.update _ p ?_ _
  rfl

theorem ratioLoad_agree (hph : (e.port p).ph = .ratioLoad) : (ratioLoad e p).Agrees (ratioLoad f p) := by
  obtain ⟨hopa, hopb⟩ := h.live_ratioLoad p hph
  rw [ratioLoad_eq, ratioLoad_eq, h.reg_eq, hopa, hopb]
  refine h.update _ p ?_ _
  rfl

/-- Whatever command is run at whatever port. -/
theorem incStep_agree (k : SlotIx) : (incStep e p k).Agrees (incStep f p k) := by
  unfold incStep
  rw [← h.ph_eq p]
  cases hph : (e.port p).ph
  case idle =>
    dsimp only
    split
    · exact incAccept_agree h p k
    · exact raiseIllegal_agree h p _
  case incLoad =>
    dsimp only
    rw [← h.live_incLoad p hph]
    split
    · exact incLoad_agree h p hph
    · exact h
  case incCas =>
    dsimp only
    rw [← (h.live_incCas p hph).1]
    split
    · exact incCas_agree h p hph
    · exact h
  case ratioLoad => exact h
  case done => exact complete_agree h p hph

theorem ratioStep_agree (a b : SlotIx) : (ratioStep e p a b).Agrees (ratioStep f p a b) := by
  unfold ratioStep
  rw [← h.ph_eq p]
  cases hph : (e.port p).ph
  case idle =>
    dsimp only
    split
    · exact ratioAccept_agree h p a b
    · exact raiseIllegal_agree h p _
  case incLoad => exact h
  case incCas => exact h
  case ratioLoad =>
    obtain ⟨hopa, hopb⟩ := h.live_ratioLoad p hph
    dsimp only
    rw [← hopa, ← hopb]
    split
    · exact ratioLoad_agree h p hph
    · exact h
  case done => exact complete_agree h p hph

end Steps

/-! ### The turns of agreeing engines -/

/-- Both outcomes are next states of one configuration, with agreeing engines and the same surroundings. -/
def OutcomesAgree (c : Config) (o₁ o₂ : Host.Outcome State Fault Refusal) : Prop :=
  ∃ (e f : Engine c) (v : Env c), o₁ = .next ⟨c, e, v⟩ ∧ o₂ = .next ⟨c, f, v⟩ ∧ e.Agrees f

theorem OutcomesAgree.next {e f : Engine c} (h : e.Agrees f) (v : Env c) :
    OutcomesAgree c (.next ⟨c, e, v⟩) (.next ⟨c, f, v⟩) :=
  ⟨e, f, v, rfl, rfl, h⟩

section Turns

variable {e f : Engine c} (h : e.Agrees f) (v : Env c) (p : Fin c.p)

include h

theorem exec_agree (i : Instr) : OutcomesAgree c (exec i ⟨c, e, v⟩) (exec i ⟨c, f, v⟩) := by
  cases i with
  | inc k => exact .next (incStep_agree h v.act k) v
  | ratio a b => exact .next (ratioStep_agree h v.act a b) v

theorem enabledTurn_eq_of_agrees : enabledTurn e v p = enabledTurn f v p := by
  rw [enabledTurn, enabledTurn, h.ph_eq p]

theorem drawTurn_eq_of_agrees : drawTurn e v = drawTurn f v := by
  have hen : enabledTurns e v = enabledTurns f v :=
    congrArg (List.filterMap · _) (funext (enabledTurn_eq_of_agrees h v))
  rw [drawTurn, drawTurn, hen]

theorem heldInstr_eq_of_agrees : heldInstr (e.port p) = heldInstr (f.port p) := by
  rw [heldInstr, heldInstr, ← h.ph_eq p]
  cases hph : (e.port p).ph
  case idle => rfl
  case incLoad => rw [h.live_incLoad p hph]
  case incCas => rw [(h.live_incCas p hph).1]
  case ratioLoad => rw [(h.live_ratioLoad p hph).1, (h.live_ratioLoad p hph).2]
  case done => rfl

theorem presentWord_agree : OutcomesAgree c (presentWord e v p) (presentWord f v p) := by
  rw [presentWord, presentWord, ← h.ph_eq p]
  split
  · split
    · exact exec_agree h _ _
    · exact .next (raiseIllegal_agree h p _) _
  · exact .next h _

theorem portTurn_agree : OutcomesAgree c (portTurn e v p) (portTurn f v p) := by
  rw [portTurn, portTurn, ← heldInstr_eq_of_agrees h p, ← h.ph_eq p]
  split
  · exact exec_agree h _ _
  · split
    · next hph => exact .next (complete_agree h p hph) _
    · exact .next h _

theorem step_agree : OutcomesAgree c (step ⟨c, e, v⟩) (step ⟨c, f, v⟩) := by
  rw [step_eq, step_eq, ← drawTurn_eq_of_agrees h v]
  cases (drawTurn e v).1 with
  | none => exact .next h _
  | some t =>
    cases t with
    | requester p => exact presentWord_agree h _ p
    | port p => exact portTurn_agree h _ p
    | reset => exact .next (.refl _) _

end Turns

/-- Settles O55: agreeing engines draw the same turn, and every step reads live latches only. -/
theorem deadLatchesAreNeverRead : Obligations.DeadLatchesAreNeverRead := by
  intro c e f e' f' v v' v'' hagree he hf
  obtain ⟨e₁, f₁, v₁, he₁, hf₁, hagree'⟩ := step_agree hagree v
  cases he.symm.trans he₁
  cases hf.symm.trans hf₁
  exact ⟨hagree', rfl⟩

end Sys2Proof.Machine
end

section
/-! SUPPORT. Every step of the spec keeps the history an explanation of the state (R44, R49, R97, R98): the readings of a
history that grows by one event of one port. -/

namespace Sys2Proof.Machine

variable {c : Config}

/-! ### The port of an event -/

/-- The port an event belongs to; `Reset` is no port's. -/
def Event.port? : Event c → Option (Fin c.p)
  | .reset => none
  | .accept p _ | .iload p _ | .casOk p _ _ | .casFail p _ | .rload p _ | .complete p _ _ => some p

theorem Event.ne_reset_of_port {ev : Event c} {p : Fin c.p} (h : ev.port? = some p) : ev ≠ .reset := by
  rintro rfl
  cases h

/-- What a port is in the middle of is not moved by another port's event. -/
theorem Progress.after_of_port_ne {ev : Event c} {p q : Fin c.p} (h : ev.port? = some p) (hq : q ≠ p) (m : Progress c) :
    m.after q ev = some m := by
  cases ev with
  | reset => cases h
  | _ => cases h; exact if_neg hq.symm

/-! ### A history that grows by one event -/

theorem regAfterAll_concat {v r r' : BitVec c.w} {evs : List (Event c)} {ev : Event c} (h : regAfterAll v evs = some r)
    (hev : regAfter r ev = some r') : regAfterAll v (evs ++ [ev]) = some r' := by
  simp [regAfterAll_append, h, regAfterAll, hev]

theorem Progress.afterAll_concat {p : Fin c.p} {m m' m'' : Progress c} {evs : List (Event c)} {ev : Event c}
    (h : m.afterAll p evs = some m') (hev : m'.after p ev = some m'') : m.afterAll p (evs ++ [ev]) = some m'' := by
  simp [progress_afterAll_append, h, Progress.afterAll, hev]

/-- A history that begins with `Reset` and has no other stays so when another event is recorded. -/
theorem resetOnlyFirst_concat {evs : List (Event c)} {ev : Event c} (hhead : evs.head? = some .reset)
    (htail : .reset ∉ evs.tail) (hev : ev ≠ .reset) :
    (evs ++ [ev]).head? = some .reset ∧ .reset ∉ (evs ++ [ev]).tail := by
  cases evs with
  | nil => cases hhead
  | cons first rest => exact ⟨hhead, by simpa using ⟨htail, hev.symm⟩⟩

/-- Recording an event of port `p` that the old register and the old progress of `p` admit, with the register and the
progress of `p` it leads to. -/
theorem Engine.Explained.record {e : Engine c} (h : e.Explained) {p : Fin c.p} {ev : Event c} (hp : ev.port? = some p)
    {r : BitVec c.w} (hreg : regAfter e.reg ev = some r) {x : Port c}
    (hx : (e.port p).progress.after p ev = some x.progress) :
    Engine.Explained ⟨r, e.ports.set p.val x p.isLt, e.hist ++ [ev]⟩ := by
  obtain ⟨hhead, htail, hval, hprog⟩ := h
  obtain ⟨hhead', htail'⟩ := resetOnlyFirst_concat hhead htail (Event.ne_reset_of_port hp)
  refine ⟨hhead', htail', regAfterAll_concat hval hreg, fun q => Progress.afterAll_concat (hprog q) ?_⟩
  rw [Engine.port_mk_set]
  split
  · next hq => rw [hq, hx]
  · next hq => exact Progress.after_of_port_ne hp hq _

theorem explained_of_reset {e : Engine c} (hreg : e.reg = 0) (hidle : ∀ p : Fin c.p, (e.port p).ph = .idle)
    (hhist : e.hist = [.reset]) : e.Explained := by
  unfold Engine.Explained
  rw [hhist, hreg]
  refine ⟨rfl, by simp, rfl, fun p => ?_⟩
  rw [Port.progress_of_idle (hidle p)]
  rfl

/-! ### What a port's next event makes of its progress -/

section After

variable {x : Port c} (p : Fin c.p)

theorem Progress.after_accept_of_idle (h : x.ph = .idle) (w : CmdWord) :
    x.progress.after p (.accept p w) = some (Progress.begin c w) := by
  simp [Port.progress_of_idle h, Progress.after]

theorem Progress.after_iload_of_incLoad (h : x.ph = .incLoad) (v : BitVec c.w) :
    x.progress.after p (.iload p v) = some (.incCas x.opa v) := by
  simp [Port.progress_of_incLoad h, Progress.after]

theorem Progress.after_casOk_of_incCas (h : x.ph = .incCas) :
    x.progress.after p (.casOk p x.cur (nextValue c x.cur x.opa.toNat)) = some (.done ⟨.ok, 0⟩) := by
  simp [Port.progress_of_incCas h, Progress.after]

theorem Progress.after_casFail_of_incCas (h : x.ph = .incCas) :
    x.progress.after p (.casFail p x.cur) = some (.incLoad x.opa) := by
  simp [Port.progress_of_incCas h, Progress.after]

theorem Progress.after_rload_of_ratioLoad (h : x.ph = .ratioLoad) (v : BitVec c.w) :
    x.progress.after p (.rload p v) = some (.done ⟨.ok, ratioData c v x.opa.toNat x.opb.toNat⟩) := by
  simp [Port.progress_of_ratioLoad h, Progress.after]

theorem Progress.after_complete_of_done (h : x.ph = .done) :
    x.progress.after p (.complete p x.rsp.status x.rsp.data) = some .idle := by
  simp [Port.progress_of_done h, Progress.after]

end After

theorem Progress.begin_of_inc {w : CmdWord} {k : SlotIx} (h : decode c w = .ok (.inc k)) :
    Progress.begin c w = .incLoad k := by
  simp [Progress.begin, h]

theorem Progress.begin_of_ratio {w : CmdWord} {a b : SlotIx} (h : decode c w = .ok (.ratio a b)) :
    Progress.begin c w = .ratioLoad a b := by
  simp [Progress.begin, h]

theorem Progress.begin_of_illegal {w : CmdWord} {why : Illegal} (h : decode c w = .error why) :
    Progress.begin c w = .done ⟨.illegal, 0⟩ := by
  simp [Progress.begin, h]

/-! ### Every step keeps the history explained -/

/-- Soundness is needed for the successful swap alone: it says that the slot the swap counted in exists. -/
theorem Engine.Explained.specStep {e e' : Engine c} (h : e.Explained) (hsound : e.Sound) (hs : SpecStep e e') :
    e'.Explained := by
  cases hs with
  | acceptInc p w k idle word =>
    refine h.record rfl rfl ?_
    rw [Progress.after_accept_of_idle p idle, Progress.begin_of_inc word]
    rfl
  | acceptRatio p w a b idle word =>
    refine h.record rfl rfl ?_
    rw [Progress.after_accept_of_idle p idle, Progress.begin_of_ratio word]
    rfl
  | acceptIllegal p w why idle word =>
    refine h.record rfl rfl ?_
    rw [Progress.after_accept_of_idle p idle, Progress.begin_of_illegal word]
    rfl
  | iload p phase =>
    have hreg : regAfter e.reg (.iload p e.reg) = some e.reg := if_pos rfl
    exact h.record rfl hreg (Progress.after_iload_of_incLoad p phase _)
  | casOk p phase current =>
    obtain ⟨hopa, -⟩ := (Port.sound_iff_of_incCas phase).mp (hsound.2 p)
    rw [current]
    have hreg : regAfter e.reg (.casOk p (e.port p).cur (nextValue c (e.port p).cur (e.port p).opa.toNat)) =
        some (nextValue c (e.port p).cur (e.port p).opa.toNat) := if_pos ⟨current.symm, _, hopa, rfl⟩
    exact h.record rfl hreg (Progress.after_casOk_of_incCas p phase)
  | casFail p phase stale =>
    have hreg : regAfter e.reg (.casFail p (e.port p).cur) = some e.reg := if_neg (Ne.symm stale)
    exact h.record rfl hreg (Progress.after_casFail_of_incCas p phase)
  | rload p phase =>
    have hreg : regAfter e.reg (.rload p e.reg) = some e.reg := if_pos rfl
    exact h.record rfl hreg (Progress.after_rload_of_ratioLoad p phase _)
  | complete p phase => exact h.record rfl rfl (Progress.after_complete_of_done p phase)
  | reset _ zero idle begun => exact explained_of_reset zero idle begun

/-- Settles O52: a step is one of the spec's or passes, and each row of the spec's relation records an event that the
history read so far admits. -/
theorem stepKeepsTheHistoryExplained : Obligations.StepKeepsTheHistoryExplained := by
  rintro ⟨c, e, v⟩ s' hsound hexplained hstep
  obtain ⟨e', v', hnext, rfl | hspec⟩ := step_leadsToSpecStep e v <;> cases hnext.symm.trans hstep
  · exact hexplained
  · exact hexplained.specStep hsound hspec

end Sys2Proof.Machine
end

section
/-! SUPPORT. What writes the register (R37): a successful swap and reset, by the turn drawn. -/

namespace Sys2Proof.Machine

variable {c : Config}

/-! ### The register, operation by operation -/

@[simp] theorem raiseIllegal_reg (e : Engine c) (p : Fin c.p) (w : CmdWord) : (raiseIllegal e p w).reg = e.reg := rfl

@[simp] theorem complete_reg (e : Engine c) (p : Fin c.p) : (complete e p).reg = e.reg := rfl

@[simp] theorem incAccept_reg (e : Engine c) (p : Fin c.p) (k : SlotIx) : (incAccept e p k).reg = e.reg := rfl

@[simp] theorem incLoad_reg (e : Engine c) (p : Fin c.p) : (incLoad e p).reg = e.reg := rfl

@[simp] theorem ratioAccept_reg (e : Engine c) (p : Fin c.p) (a b : SlotIx) : (ratioAccept e p a b).reg = e.reg := rfl

@[simp] theorem ratioLoad_reg (e : Engine c) (p : Fin c.p) : (ratioLoad e p).reg = e.reg := rfl

/-- The register is as in `e`, or port `p` has swapped the value it loaded, still current, for `NEXT` of it. -/
def RegKeptOrSwapped (e : Engine c) (p : Fin c.p) (e' : Engine c) : Prop :=
  e'.reg = e.reg ∨
    ((e.port p).ph = .incCas ∧ (e.port p).cur = e.reg ∧ e'.reg = nextValue c e.reg (e.port p).opa.toNat)

/-- Only a port in phase `INC_CAS` swaps. -/
theorem RegKeptOrSwapped.reg_eq {e e' : Engine c} {p : Fin c.p} (h : RegKeptOrSwapped e p e')
    (hph : (e.port p).ph ≠ .incCas) : e'.reg = e.reg :=
  h.resolve_right fun hswap => hph hswap.1

theorem incCas_regKeptOrSwapped {e : Engine c} {p : Fin c.p} (hph : (e.port p).ph = .incCas) :
    RegKeptOrSwapped e p (incCas e p) := by
  by_cases hcur : e.reg = (e.port p).cur
  · refine .inr ⟨hph, hcur.symm, ?_⟩
    rw [incCas_of_current e p hcur, hcur]
  · rw [incCas_of_stale e p hcur]
    exact .inl rfl

theorem incStep_regKeptOrSwapped (e : Engine c) (p : Fin c.p) (k : SlotIx) : RegKeptOrSwapped e p (incStep e p k) := by
  obtain ⟨-, -, h⟩ | ⟨-, -, h⟩ | ⟨-, -, h⟩ | ⟨hph, -, h⟩ | ⟨-, h⟩ | ⟨-, -, -, h⟩ := incStep_cases e p k <;> rw [h]
  · exact .inl (incAccept_reg e p k)
  · exact .inl (raiseIllegal_reg e p _)
  · exact .inl (incLoad_reg e p)
  · exact incCas_regKeptOrSwapped hph
  · exact .inl (complete_reg e p)
  · exact .inl rfl

theorem ratioStep_reg (e : Engine c) (p : Fin c.p) (a b : SlotIx) : (ratioStep e p a b).reg = e.reg := by
  obtain ⟨-, -, -, h⟩ | ⟨-, -, h⟩ | ⟨-, -, -, h⟩ | ⟨-, h⟩ | ⟨-, -, -, h⟩ := ratioStep_cases e p a b <;> simp [h]

/-! ### The register, turn by turn -/

theorem exec_regKeptOrSwapped {i : Instr} {e e' : Engine c} {v v' : Env c} (h : exec i ⟨c, e, v⟩ = .next ⟨c, e', v'⟩) :
    RegKeptOrSwapped e v.act e' := by
  cases i with
  | inc k =>
    cases (exec_inc k e v).symm.trans h
    exact incStep_regKeptOrSwapped e v.act k
  | ratio a b =>
    cases (exec_ratio a b e v).symm.trans h
    exact .inl (ratioStep_reg e v.act a b)

/-- A requester's turn begins a command or raises the exception; it never swaps. -/
theorem presentWord_reg {e e' : Engine c} {v v' : Env c} {p : Fin c.p}
    (h : presentWord e v p = .next ⟨c, e', v'⟩) : e'.reg = e.reg := by
  obtain ⟨w, i, hidle, -, -, hrun⟩ | ⟨w, -, -, -, -, hrun⟩ | ⟨-, hrun⟩ := presentWord_cases e v p <;> rw [hrun] at h
  · exact (exec_regKeptOrSwapped h).reg_eq (by simp [hidle])
  · cases h
    exact raiseIllegal_reg e p w
  · cases h
    rfl

theorem portTurn_regKeptOrSwapped {e e' : Engine c} {v v' : Env c} {p : Fin c.p}
    (h : portTurn e v p = .next ⟨c, e', v'⟩) : RegKeptOrSwapped e p e' := by
  obtain ⟨-, hrun⟩ | ⟨-, hrun⟩ | ⟨-, hrun⟩ | ⟨-, hrun⟩ := portTurn_cases e v p <;> rw [hrun] at h
  · exact exec_regKeptOrSwapped h
  · exact exec_regKeptOrSwapped h
  · cases h
    exact .inl (complete_reg e p)
  · cases h
    exact .inl rfl

/-- Settles O48: by the turn drawn. -/
theorem onlySwapAndResetWriteTheRegister : Obligations.OnlySwapAndResetWriteTheRegister := by
  intro c e e' v v' hstep
  obtain ⟨-, h⟩ | ⟨p, -, h⟩ | ⟨p, hturn, h⟩ | ⟨hturn, h⟩ := step_cases e v <;> rw [h] at hstep
  · cases hstep
    exact .inl rfl
  · exact .inl (presentWord_reg hstep)
  · exact (portTurn_regKeptOrSwapped hstep).imp_right fun hswap => .inr ⟨p, hturn, hswap⟩
  · cases hstep
    exact .inr (.inl ⟨hturn, Engine.atReset_reg⟩)

end Sys2Proof.Machine
end

section
/-! SUPPORT. Encode and decode (R57 to R61): the two are inverse on the commands whose slots exist, so those count the
legal words; the other words are the clauses of R60; and what an idle port does with a word of either kind. -/

namespace Sys2Proof

/-! ### The round trip -/

/-- R61: a command whose slots exist is read back from its word. -/
theorem decode_encode {c : Config} {i : Instr} (h : i.wf c = true) : decode c (encode i) = .ok i := by
  cases i with
  | inc k =>
    simp [decode, opField_encode_inc, aField_encode_inc, bField_encode_inc, Instr.wf_inc_iff.mp h]
  | ratio a b =>
    simp [decode, opField_encode_ratio, aField_encode_ratio, bField_encode_ratio, Instr.wf_ratio_iff.mp h]

theorem encode_injOn_wf {c : Config} {i j : Instr} (hi : i.wf c = true) (hj : j.wf c = true)
    (h : encode i = encode j) : i = j :=
  Except.ok.inj <| calc
    .ok i = decode c (encode i) := (decode_encode hi).symm
    _ = decode c (encode j) := by rw [h]
    _ = .ok j := decode_encode hj

/-- Settles O1: the three fields of the encoded word are those `encode` laid down. -/
theorem decodeInvertsEncode : Obligations.DecodeInvertsEncode :=
  fun _ _ h => decode_encode h

/-- Settles O2: a word is made up of its three fields, and the decoder takes it only when the slots they name exist. -/
theorem encodeInvertsDecode : Obligations.EncodeInvertsDecode :=
  fun _ _ _ h => encode_of_decode h

/-- Settles O5: the nine words computed. -/
theorem specWordsDecode : Obligations.SpecWordsDecode := by
  unfold Obligations.SpecWordsDecode
  decide

/-! ### The number of legal words -/

/-- R61: the legal words are the encodings of the commands whose slots exist. -/
theorem isOk_decode_iff {c : Config} {w : CmdWord} :
    (decode c w).isOk = true ↔ ∃ i : Instr, i.wf c = true ∧ encode i = w := by
  constructor
  · intro h
    cases hd : decode c w with
    | ok i => exact ⟨i, (encode_of_decode hd).2, (encode_of_decode hd).1⟩
    | error why => simp [hd, Except.isOk, Except.toBool] at h
  · rintro ⟨i, hwf, rfl⟩
    rw [decode_encode hwf]
    rfl

/-- The index of an existing slot as a command word carries it. -/
def slotIx (c : Config) (k : Fin c.n) : SlotIx := BitVec.ofNat 6 k

/-- Six bits hold every slot index, as `N ≤ 64`. -/
theorem slotIx_toNat (c : Config) (k : Fin c.n) : (slotIx c k).toNat = k :=
  Nat.mod_eq_of_lt (k.isLt.trans_le c.n_le)

theorem slotIx_injective (c : Config) : Function.Injective (slotIx c) := fun j k h =>
  Fin.ext (by rw [← slotIx_toNat c j, h, slotIx_toNat])

theorem exists_slotIx_eq {c : Config} {k : SlotIx} (h : k.toNat < c.n) : ∃ j : Fin c.n, slotIx c j = k :=
  ⟨⟨k.toNat, h⟩, BitVec.eq_of_toNat_eq (slotIx_toNat c _)⟩

/-- The commands of a configuration: an `INC` for each slot, a `RATIO` for each pair of slots. -/
def command (c : Config) : Fin c.n ⊕ Fin c.n × Fin c.n → Instr
  | .inl k => .inc (slotIx c k)
  | .inr (a, b) => .ratio (slotIx c a) (slotIx c b)

theorem command_wf (c : Config) (x : Fin c.n ⊕ Fin c.n × Fin c.n) : (command c x).wf c = true := by
  cases x with
  | inl k => simp [command, Instr.wf_inc_iff, slotIx_toNat]
  | inr ab => simp [command, Instr.wf_ratio_iff, slotIx_toNat]

theorem command_injective (c : Config) : Function.Injective (command c) := by
  rintro (j | ⟨a, b⟩) (k | ⟨a', b'⟩) h
  · simpa [command, (slotIx_injective c).eq_iff] using h
  · cases h
  · cases h
  · simpa [command, (slotIx_injective c).eq_iff] using h

theorem exists_command_eq {c : Config} {i : Instr} (h : i.wf c = true) : ∃ x, command c x = i := by
  cases i with
  | inc k =>
    obtain ⟨j, rfl⟩ := exists_slotIx_eq (Instr.wf_inc_iff.mp h)
    exact ⟨.inl j, rfl⟩
  | ratio a b =>
    obtain ⟨ha, hb⟩ := Instr.wf_ratio_iff.mp h
    obtain ⟨j, rfl⟩ := exists_slotIx_eq ha
    obtain ⟨k, rfl⟩ := exists_slotIx_eq hb
    exact ⟨.inr (j, k), rfl⟩

/-- The word of a command, as a number below 65536. -/
def commandWord (c : Config) (x : Fin c.n ⊕ Fin c.n × Fin c.n) : Nat := (encode (command c x)).toNat

theorem commandWord_injective (c : Config) : Function.Injective (commandWord c) := fun x y h =>
  command_injective c (encode_injOn_wf (command_wf c x) (command_wf c y) (BitVec.eq_of_toNat_eq h))

/-- The legal words as numbers are the words of those commands. -/
theorem isOk_decode_ofNat_iff (c : Config) (x : Nat) :
    (x < 65536 ∧ (decode c (BitVec.ofNat 16 x)).isOk = true) ↔ ∃ y, commandWord c y = x := by
  constructor
  · rintro ⟨hx, hok⟩
    obtain ⟨i, hwf, hw⟩ := isOk_decode_iff.mp hok
    obtain ⟨y, rfl⟩ := exists_command_eq hwf
    refine ⟨y, ?_⟩
    rw [commandWord, hw, BitVec.toNat_ofNat, Nat.mod_eq_of_lt hx]
  · rintro ⟨y, rfl⟩
    refine ⟨(encode (command c y)).isLt, isOk_decode_iff.mpr ⟨_, command_wf c y, ?_⟩⟩
    simp [commandWord]

/-- Settles O3: the legal words are the distinct words of the `N` increments and the `N × N` ratio queries. -/
theorem legalWordsAreCounted : Obligations.LegalWordsAreCounted := by
  intro c
  have hwords : (Finset.range 65536).filter (fun x => (decode c (BitVec.ofNat 16 x)).isOk = true) =
      Finset.univ.image (commandWord c) := by
    ext x
    simp [isOk_decode_ofNat_iff]
  calc (List.range 65536).countP (fun x => (decode c (BitVec.ofNat 16 x)).isOk)
      = Nat.count (fun x => (decode c (BitVec.ofNat 16 x)).isOk = true) 65536 := by simp [Nat.count]
    _ = (Finset.univ.image (commandWord c)).card := by rw [Nat.count_eq_card_filter_range, hwords]
    _ = c.n + c.n * c.n := by
      rw [Finset.card_image_of_injective _ (commandWord_injective c)]
      simp

/-! ### The illegal words -/

/-- R60: the clauses (a) to (d). -/
theorem decode_isError_iff (c : Config) (w : CmdWord) : (∃ why, decode c w = .error why) ↔
    ((opField w ≠ 0x1#4 ∧ opField w ≠ 0x2#4) ∨ (opField w = 0x1#4 ∧ bField w ≠ 0#6) ∨
     (opField w = 0x1#4 ∧ c.n ≤ (aField w).toNat) ∨
     (opField w = 0x2#4 ∧ (c.n ≤ (aField w).toNat ∨ c.n ≤ (bField w).toNat))) := by
  unfold decode
  split_ifs with hinc hb ha hratio hab
  · simp [hinc, hb, ha]
  · simp [hinc, Nat.not_lt.mp ha]
  · simp [hinc, hb]
  · simp [hratio, hab]
  · have hout : c.n ≤ (aField w).toNat ∨ c.n ≤ (bField w).toNat := by omega
    simp [hratio, hout]
  · simp [hinc, hratio]

end Sys2Proof

namespace Sys2Proof.Machine

variable {c : Config}

/-! ### A word presented at an idle port -/

section Presented

variable {e : Engine c} {v : Env c} {p : Fin c.p} {w : CmdWord}

theorem presentWord_of_ok {i : Instr} (hidle : (e.port p).ph = .idle) (hw : v.offered p = some w)
    (hd : decode c w = .ok i) : presentWord e v p = exec i ⟨c, e, { v.taken p with act := p }⟩ := by
  simp only [presentWord, hidle, hw, hd]

theorem presentWord_of_error {why : Illegal} (hidle : (e.port p).ph = .idle) (hw : v.offered p = some w)
    (hd : decode c w = .error why) :
    presentWord e v p = .next ⟨c, raiseIllegal e p w, { v.taken p with act := p }⟩ := by
  simp only [presentWord, hidle, hw, hd]

end Presented

/-- What R127 leaves in the port. -/
theorem raiseIllegal_port_self (e : Engine c) (p : Fin c.p) (w : CmdWord) :
    (raiseIllegal e p w).port p = { e.port p with ph := .done, rsp := { status := .illegal, data := 0 } } := by
  simp [raiseIllegal]

/-- Settles O4: the clauses are the branches of the decoder that give no command, and a requester's turn at an idle port
with such a word raises `IllegalCommand`. -/
theorem illegalWordsAreExactlyThese : Obligations.IllegalWordsAreExactlyThese := by
  refine ⟨decode_isError_iff, fun c e v v' p w why hturn hidle hw hd => ?_⟩
  refine ⟨_, _, (step_requester hturn).trans (presentWord_of_error hidle hw hd), raiseIllegal_reg e p w, ?_, ?_⟩ <;>
    rw [raiseIllegal_port_self]

/-- Settles O45: the turn drawn is the requester's, its port is idle and its word decodes. -/
theorem stepRunsThePresentedWord : Obligations.StepRunsThePresentedWord :=
  fun _ _ _ _ _ _ _ hturn hidle hw hd => (step_requester hturn).trans (presentWord_of_ok hidle hw hd)

end Sys2Proof.Machine
end

section
/-! SUPPORT. A packed value by its slots (R10, R55): what the bits of a slot say of its value and sentinel, that two
well-formed values with the same slot values are equal, and what the shift and the mask of the decay do to a slot (R72). -/

namespace Sys2Proof.Machine

variable {c : Config}

/-! ### Slot, sentinel and value -/

theorem two_pow_s (c : Config) : 2 ^ c.s = 2 * 2 ^ (c.s - 1) := by
  rw [← Nat.pow_succ', Nat.succ_eq_add_one, Nat.sub_add_cancel (Nat.one_le_of_lt c.s_ge)]

theorem one_lt_two_pow_s (c : Config) : 1 < 2 ^ c.s := Nat.one_lt_two_pow (Nat.ne_zero_of_lt c.s_ge)

theorem value_lt (c : Config) (v : BitVec c.w) (k : Nat) : value c v k < 2 ^ (c.s - 1) := by
  rw [← vmax_add_one]
  exact Nat.lt_succ_of_le (value_le_vmax c v k)

/-- `VMAX` is odd: `(VMAX + 1) / 2 = 2^(S−2)` exactly. -/
theorem vmax_add_one_eq_two_mul (c : Config) : vmax c + 1 = 2 * 2 ^ (c.s - 2) := by
  have := c.s_ge
  rw [vmax_add_one, ← Nat.pow_succ', show (c.s - 2).succ = c.s - 1 by omega]

theorem slot_getLsbD (v : BitVec c.w) (k i : Nat) :
    (slot c v k).getLsbD i = (decide (i < c.s) && v.getLsbD (off c k + i)) := by
  rw [slot, BitVec.getLsbD_extractLsb']

theorem value_testBit (v : BitVec c.w) (k i : Nat) :
    (value c v k).testBit i = (decide (i < c.s - 1) && v.getLsbD (off c k + i)) := by
  rw [value_eq, Nat.testBit_mod_two_pow, Nat.testBit_div_two_pow, Nat.add_comm i, BitVec.testBit_toNat]

/-- A whole slot is its value below its sentinel. -/
theorem slot_toNat_eq_value_add (v : BitVec c.w) (k : Nat) :
    (slot c v k).toNat = value c v k + 2 ^ (c.s - 1) * (sent c v k).toNat := by
  have hs : c.s - 1 + 1 = c.s := Nat.sub_add_cancel (Nat.one_le_of_lt c.s_ge)
  have hbit : sent c v k = (v.toNat / 2 ^ off c k).testBit (c.s - 1) := by
    rw [Nat.testBit_div_two_pow, Nat.add_comm, BitVec.testBit_toNat, sent, sentPos]
  calc (slot c v k).toNat = v.toNat / 2 ^ off c k % 2 ^ (c.s - 1 + 1) := by rw [slot_toNat, hs]
    _ = value c v k + 2 ^ (c.s - 1) * (sent c v k).toNat := by
      rw [Nat.mod_pow_succ, value_eq, hbit, Nat.toNat_testBit]

theorem value_eq_slot_mod (v : BitVec c.w) (k : Nat) : value c v k = (slot c v k).toNat % 2 ^ (c.s - 1) := by
  rw [slot_toNat_eq_value_add, Nat.add_mul_mod_self_left, Nat.mod_eq_of_lt (value_lt c v k)]

theorem sent_eq_slot_getLsbD (v : BitVec c.w) (k : Nat) : sent c v k = (slot c v k).getLsbD (c.s - 1) := by
  have := c.s_ge
  rw [slot_getLsbD, decide_eq_true (by omega), Bool.true_and, sent, sentPos]

theorem slot_toNat_of_WF {v : BitVec c.w} (h : WF c v = true) {j : Nat} (hj : j < c.n) :
    (slot c v j).toNat = value c v j := by
  rw [slot_toNat_eq_value_add, (WF_iff.mp h).1 j hj, Bool.toNat_false, Nat.mul_zero, Nat.add_zero]

@[simp] theorem value_zero (c : Config) (k : Nat) : value c 0 k = 0 := by simp [value_eq]

/-- A well-formed value is made up of its slot values. -/
theorem eq_of_value_eq {u v : BitVec c.w} (hu : WF c u = true) (hv : WF c v = true)
    (h : ∀ j, j < c.n → value c u j = value c v j) : u = v := by
  obtain ⟨hus, hul⟩ := WF_iff.mp hu
  obtain ⟨hvs, hvl⟩ := WF_iff.mp hv
  refine BitVec.eq_of_getLsbD_eq fun i _ => ?_
  obtain hslack | hused := Nat.lt_or_ge i (c.n * c.s) |>.symm
  · have hpow : 2 ^ (c.n * c.s) ≤ 2 ^ i := Nat.pow_le_pow_right (by decide) hslack
    exact (Nat.testBit_lt_two_pow (hul.trans_le hpow)).trans (Nat.testBit_lt_two_pow (hvl.trans_le hpow)).symm
  · have hs : 0 < c.s := Nat.zero_lt_of_lt c.s_ge
    have hj : i / c.s < c.n := Nat.div_lt_of_lt_mul (by rwa [Nat.mul_comm])
    have hi : i = off c (i / c.s) + i % c.s := by rw [off, Nat.mul_comm, Nat.div_add_mod]
    obtain hr | hr : i % c.s = c.s - 1 ∨ i % c.s < c.s - 1 := by have := Nat.mod_lt i hs; omega
    · rw [hi, hr]
      exact (hus _ hj).trans (hvs _ hj).symm
    · have hbit := congrArg (fun x => x.testBit (i % c.s)) (h _ hj)
      simp only [value_testBit, decide_eq_true hr, Bool.true_and] at hbit
      rwa [hi]

/-! ### The shift and the mask -/

/-- No sentinel position lies in the value field of a slot. -/
theorem off_add_ne_sentPos (c : Config) (j k : Nat) {i : Nat} (hi : i < c.s - 1) : off c j + i ≠ sentPos c k := by
  unfold sentPos
  obtain h | rfl | h := Nat.lt_trichotomy j k
  · have := off_add_le_off c h
    omega
  · omega
  · have := off_add_le_off c h
    omega

theorem value_and_keepMask (v : BitVec c.w) (j : Nat) : value c (v &&& keepMask c) j = value c v j := by
  refine Nat.eq_of_testBit_eq fun i => ?_
  rw [value_testBit, value_testBit]
  by_cases hi : i < c.s - 1
  · by_cases hw : off c j + i < c.w
    · have hnot : (sentMask c).getLsbD (off c j + i) = false := by
        rw [← Bool.not_eq_true, sentMask_getLsbD_iff]
        rintro ⟨k, -, hk⟩
        exact off_add_ne_sentPos c j k hi hk
      rw [BitVec.getLsbD_and, keepMask_getLsbD c hw, hnot, Bool.not_false, Bool.and_true]
    · rw [BitVec.getLsbD_of_ge _ _ (Nat.not_lt.mp hw), BitVec.getLsbD_of_ge _ _ (Nat.not_lt.mp hw)]
  · rw [decide_eq_false hi, Bool.false_and, Bool.false_and]

/-- The sentinel of a slot shifts into its value; the bit of the slot above lands on the sentinel. -/
theorem value_ushiftRight_one (v : BitVec c.w) (j : Nat) : value c (v >>> 1) j = (slot c v j).toNat / 2 := by
  rw [value_eq, slot_toNat, two_pow_s, Nat.mod_mul_right_div_self, BitVec.toNat_ushiftRight, Nat.shiftRight_eq_div_pow,
    Nat.pow_one, Nat.div_div_eq_div_mul, Nat.div_div_eq_div_mul, Nat.mul_comm 2]

/-- R72: the decay halves every whole slot of the sum, whatever the input. -/
theorem value_decayed (v : BitVec c.w) (k j : Nat) : value c (decayed c v k) j = (slot c (sum c v k) j).toNat / 2 := by
  rw [decayed, value_and_keepMask, value_ushiftRight_one]

end Sys2Proof.Machine
end

section
/-! SUPPORT. The sum and the overflow on a well-formed value, slot by slot (R74, R75), and the lane laws of `NEXT` that
follow from them (R76, R77). -/

namespace Sys2Proof.Machine

theorem ovf_eq_not_I1 {c : Config} (v : BitVec c.w) (k : Nat) : ovf c v k = !I1 c (sum c v k) := by
  rw [ovf, I1, decide_not]

/-- R70: the one test against the mask looks at every slot's sentinel. -/
theorem ovf_eq_false_iff {c : Config} {v : BitVec c.w} {k : Nat} :
    ovf c v k = false ↔ ∀ j, j < c.n → sent c (sum c v k) j = false := by
  rw [ovf_eq_not_I1, Bool.not_eq_false', I1_iff]

section Lanes

variable {c : Config} {v : BitVec c.w} {k : Nat} (hv : WF c v = true) (hk : k < c.n)

include hv hk

/-! ### The sum -/

theorem sum_toNat_eq : (sum c v k).toNat = v.toNat + 2 ^ off c k := by
  rw [sum_toNat_of_WF hv hk, unit_toNat c hk]

theorem sum_toNat_div_off : (sum c v k).toNat / 2 ^ off c k = v.toNat / 2 ^ off c k + 1 := by
  rw [sum_toNat_eq hv hk, Nat.add_div_right _ (Nat.two_pow_pos _)]

/-- R74: with its sentinel clear, slot `k` takes one more without a carry out of it. -/
theorem slot_add_one_lt : v.toNat / 2 ^ off c k % 2 ^ c.s + 1 % 2 ^ c.s < 2 ^ c.s := by
  have hs := two_pow_s c
  have hlt := value_lt c v k
  have hmod := Nat.mod_le 1 (2 ^ c.s)
  rw [← slot_toNat, slot_toNat_of_WF hv hk]
  omega

theorem slot_sum_self : (slot c (sum c v k) k).toNat = value c v k + 1 := by
  rw [slot_toNat, sum_toNat_div_off hv hk, Nat.add_mod_of_add_mod_lt (slot_add_one_lt hv hk), ← slot_toNat,
    slot_toNat_of_WF hv hk, Nat.mod_eq_of_lt (one_lt_two_pow_s c)]

theorem sum_toNat_div_off_add : (sum c v k).toNat / 2 ^ (off c k + c.s) = v.toNat / 2 ^ (off c k + c.s) := by
  rw [Nat.pow_add, ← Nat.div_div_eq_div_mul, ← Nat.div_div_eq_div_mul, sum_toNat_div_off hv hk,
    Nat.add_div_eq_of_add_mod_lt (slot_add_one_lt hv hk), Nat.div_eq_of_lt (one_lt_two_pow_s c), Nat.add_zero]

/-- R74 (b): nothing outside slot `k` changes. -/
theorem sum_getLsbD_of_outside {i : Nat} (hi : i < off c k ∨ off c k + c.s ≤ i) :
    (sum c v k).getLsbD i = v.getLsbD i := by
  rw [← BitVec.testBit_toNat, ← BitVec.testBit_toNat]
  obtain hbelow | habove := hi
  · have hmod : (sum c v k).toNat % 2 ^ off c k = v.toNat % 2 ^ off c k := by
      rw [sum_toNat_eq hv hk, Nat.add_mod_right]
    have hbit := congrArg (fun x => x.testBit i) hmod
    simpa only [Nat.testBit_mod_two_pow, decide_eq_true hbelow, Bool.true_and] using hbit
  · have hbit := congrArg (fun x => x.testBit (i - (off c k + c.s))) (sum_toNat_div_off_add hv hk)
    simpa only [Nat.testBit_div_two_pow, Nat.sub_add_cancel habove] using hbit

theorem slot_sum_of_ne {j : Nat} (hj : j ≠ k) : slot c (sum c v k) j = slot c v j := by
  refine BitVec.eq_of_getLsbD_eq fun i hi => ?_
  rw [slot_getLsbD, slot_getLsbD, sum_getLsbD_of_outside hv hk]
  obtain h | h := Nat.lt_or_gt_of_ne hj
  · have := off_add_le_off c h
    omega
  · have := off_add_le_off c h
    omega

theorem value_sum_of_ne {j : Nat} (hj : j ≠ k) : value c (sum c v k) j = value c v j := by
  rw [value_eq_slot_mod, slot_sum_of_ne hv hk hj, ← value_eq_slot_mod]

theorem sent_sum_of_ne {j : Nat} (hj : j < c.n) (hne : j ≠ k) : sent c (sum c v k) j = false := by
  rw [sent_eq_slot_getLsbD, slot_sum_of_ne hv hk hne, ← sent_eq_slot_getLsbD, (WF_iff.mp hv).1 j hj]

/-- The sentinel is the carry out of the value field of slot `k`. -/
theorem value_sum_self_add_sent :
    value c (sum c v k) k + (vmax c + 1) * (sent c (sum c v k) k).toNat = value c v k + 1 := by
  rw [vmax_add_one, ← slot_toNat_eq_value_add, slot_sum_self hv hk]

/-! ### The overflow -/

theorem sum_self_of_lt (hlt : value c v k < vmax c) :
    value c (sum c v k) k = value c v k + 1 ∧ sent c (sum c v k) k = false := by
  have hcarry := value_sum_self_add_sent hv hk
  cases hs : sent c (sum c v k) k <;> rw [hs] at hcarry
  · exact ⟨hcarry, rfl⟩
  · rw [Bool.toNat_true] at hcarry
    omega

theorem sum_self_of_eq_vmax (hmax : value c v k = vmax c) :
    value c (sum c v k) k = 0 ∧ sent c (sum c v k) k = true := by
  have hcarry := value_sum_self_add_sent hv hk
  have hle := value_le_vmax c (sum c v k) k
  cases hs : sent c (sum c v k) k <;> rw [hs] at hcarry
  · rw [Bool.toNat_false] at hcarry
    omega
  · rw [Bool.toNat_true] at hcarry
    exact ⟨by omega, rfl⟩

/-- R75: below `VMAX` no sentinel of the sum is set. -/
theorem sent_sum_of_lt (hlt : value c v k < vmax c) {j : Nat} (hj : j < c.n) : sent c (sum c v k) j = false := by
  obtain rfl | hne := eq_or_ne j k
  · exact (sum_self_of_lt hv hk hlt).2
  · exact sent_sum_of_ne hv hk hj hne

theorem ovf_of_lt (hlt : value c v k < vmax c) : ovf c v k = false :=
  ovf_eq_false_iff.mpr fun _ hj => sent_sum_of_lt hv hk hlt hj

theorem ovf_of_eq_vmax (hmax : value c v k = vmax c) : ovf c v k = true := by
  by_contra hnot
  have hs := ovf_eq_false_iff.mp (Bool.eq_false_of_not_eq_true hnot) k hk
  rw [(sum_self_of_eq_vmax hv hk hmax).2] at hs
  cases hs

/-! ### The lane laws -/

/-- R76. -/
theorem value_nextValue_of_lt (hlt : value c v k < vmax c) (j : Nat) :
    value c (nextValue c v k) j = value c v j + (if j = k then 1 else 0) := by
  rw [nextValue_of_not_ovf (ovf_of_lt hv hk hlt)]
  split
  · next h =>
    subst h
    exact (sum_self_of_lt hv hk hlt).1
  · next h => exact value_sum_of_ne hv hk h

/-- R77 in the form of R78: each slot is halved, then slot `k` takes its increment. -/
theorem value_nextValue_of_eq_vmax (hmax : value c v k = vmax c) {j : Nat} (hj : j < c.n) :
    value c (nextValue c v k) j = value c v j / 2 + (if j = k then 1 else 0) := by
  rw [nextValue_of_ovf (ovf_of_eq_vmax hv hk hmax), value_decayed]
  split
  · next h =>
    subst h
    have hodd := vmax_add_one_eq_two_mul c
    rw [slot_sum_self hv hj, hmax]
    omega
  · next h => rw [slot_sum_of_ne hv hk h, slot_toNat_of_WF hv hj, Nat.add_zero]

/-- `(VMAX + 1) / 2 = 2^(S−2)`: the slot that overflowed keeps its increment. -/
theorem value_nextValue_self_of_eq_vmax (hmax : value c v k = vmax c) :
    value c (nextValue c v k) k = 2 ^ (c.s - 2) := by
  have hodd := vmax_add_one_eq_two_mul c
  rw [value_nextValue_of_eq_vmax hv hk hmax hk, if_pos rfl, hmax]
  omega

theorem value_nextValue_of_eq_vmax_of_ne (hmax : value c v k = vmax c) {j : Nat} (hj : j < c.n) (hne : j ≠ k) :
    value c (nextValue c v k) j = value c v j / 2 := by
  rw [value_nextValue_of_eq_vmax hv hk hmax hj, if_neg hne, Nat.add_zero]

end Lanes

/-! ### The laws as stated -/

/-- Settles O7: slot `k` has room for one more, so the number and the slot grow by one unit and no carry leaves the slot. -/
theorem sumStaysInsideItsSlot : Obligations.SumStaysInsideItsSlot := fun c _ _ hk hv =>
  ⟨(add_unit_lt_of_WF hv hk).trans_le (Nat.pow_le_pow_right (by decide) c.fits), sum_toNat_of_WF hv hk,
    fun _ hi => sum_getLsbD_of_outside hv hk hi, slot_sum_self hv hk⟩

/-- Settles O8: the sentinel of slot `k` is the carry out of its value, and no other slot of the sum has changed. -/
theorem overflowFiresExactlyAtVmax : Obligations.OverflowFiresExactlyAtVmax := by
  intro c v k hk hv
  have hbelow : value c v k ≠ vmax c → value c v k < vmax c := (value_le_vmax c v k).lt_of_ne
  refine ⟨⟨fun hovf => ?_, ovf_of_eq_vmax hv hk⟩, fun hmax => ?_, fun hne _ hj => sent_sum_of_lt hv hk (hbelow hne) hj⟩
  · by_contra hne
    rw [ovf_of_lt hv hk (hbelow hne)] at hovf
    cases hovf
  · obtain ⟨hval, hsent⟩ := sum_self_of_eq_vmax hv hk hmax
    have hslot : (slot c (sum c v k) k).toNat = 2 ^ (c.s - 1) := by rw [slot_sum_self hv hk, hmax, vmax_add_one]
    exact ⟨hslot, hsent, hval, fun _ hj hne => sent_sum_of_ne hv hk hj hne⟩

/-- Settles O9: below `VMAX` the next value is the sum. -/
theorem incrementAddsOneToItsSlot : Obligations.IncrementAddsOneToItsSlot := fun _ _ k hk hv hlt =>
  ⟨by rw [value_nextValue_of_lt hv hk hlt k, if_pos rfl],
    fun j _ hne => by rw [value_nextValue_of_lt hv hk hlt j, if_neg hne, Nat.add_zero]⟩

/-- Settles O10: the shift brings the sentinel of each slot of the sum into its value, and only slot `k` has one. -/
theorem decayHalvesEverySlot : Obligations.DecayHalvesEverySlot := by
  intro c v k hk hv hmax
  have hhalf : 2 ^ (c.s - 2) = (vmax c + 1) / 2 := by
    rw [vmax_add_one_eq_two_mul, Nat.mul_div_cancel_left _ Nat.two_pos]
  exact ⟨value_nextValue_self_of_eq_vmax hv hk hmax, hhalf,
    fun j hj hne => value_nextValue_of_eq_vmax_of_ne hv hk hmax hj hne⟩

/-- Settles O11: `VMAX` is odd, so halving after the increment or before it gives the same. -/
theorem decayIsHalveThenIncrement : Obligations.DecayIsHalveThenIncrement :=
  fun _ _ _ hk hv hmax _ hj => value_nextValue_of_eq_vmax hv hk hmax hj

/-- Settles O12: the sum is kept only when it has no sentinel, and the decay clears them. -/
theorem nextClearsEverySentinel : Obligations.NextClearsEverySentinel := fun _ v k => I1_nextValue v k

/-- Settles O13: the sum of a well-formed value stays below the slack, and the next value is no larger. -/
theorem nextKeepsWellFormed : Obligations.NextKeepsWellFormed :=
  fun _ _ _ hk hv => ⟨slackZero_nextValue hv hk, WF_nextValue hv hk⟩

/-- Settles O15: the lane laws speak of slot values alone, so they read the same through a permutation. -/
theorem slotPositionIsUnobservable : Obligations.SlotPositionIsUnobservable := by
  intro c v u perm hperm hinj hv hu hval
  refine ⟨fun k j hk hj => ?_, fun a b ha hb => by rw [ratioQ, ratioQ, hval a ha, hval b hb]⟩
  have hiff : perm j = perm k ↔ j = k := ⟨hinj j k hj hk, congrArg perm⟩
  obtain hlt | hmax := (value_le_vmax c v k).lt_or_eq
  · rw [value_nextValue_of_lt hv hk hlt, value_nextValue_of_lt hu (hperm k hk) (by rwa [hval k hk]), hval j hj]
    simp only [hiff]
  · rw [value_nextValue_of_eq_vmax hv hk hmax hj,
      value_nextValue_of_eq_vmax hu (hperm k hk) (by rwa [hval k hk]) (hperm j hj), hval j hj]
    simp only [hiff]

/-- Settles O16: the halves of the other slots are below `2^(S−2)`, the half of `VMAX + 1`. -/
theorem decayingSlotIsLargest : Obligations.DecayingSlotIsLargest := by
  intro c v k j hk hv hmax hj hne
  have hodd := vmax_add_one_eq_two_mul c
  have hle := value_le_vmax c v j
  rw [value_nextValue_self_of_eq_vmax hv hk hmax, value_nextValue_of_eq_vmax_of_ne hv hk hmax hj hne]
  omega

end Sys2Proof.Machine
end

section
/-! SUPPORT. `NEXT` under an arithmetic shift (R81) and its fixed points (R84). -/

namespace Sys2Proof.Machine

variable {c : Config}

/-! ### The arithmetic shift -/

theorem sum_toNat_lt_of_WF {v : BitVec c.w} (hv : WF c v = true) {k : Nat} (hk : k < c.n) :
    (sum c v k).toNat < 2 ^ (c.n * c.s) := by
  rw [sum_toNat_of_WF hv hk]
  exact add_unit_lt_of_WF hv hk

/-- Without slack the top bit is the sentinel of the highest slot, which the mask clears. -/
theorem keepMask_top (h : c.n * c.s = c.w) : (keepMask c).getLsbD (c.w - 1) = false := by
  have htop : sentPos c (c.n - 1) = c.w - 1 := by
    have := sentPos_pred_n_add_one c
    omega
  have hpos := sentPos_lt c (Nat.sub_one_lt_of_lt c.n_pos)
  rw [keepMask_getLsbD c (htop ▸ hpos), (sentMask_getLsbD_iff c _).mpr ⟨_, Nat.sub_one_lt_of_lt c.n_pos, htop.symm⟩,
    Bool.not_true]

/-- R81: the two shifts differ in the top bit at most, which is clear or masked away. -/
theorem sshiftRight_one_and_keepMask {x : BitVec c.w} (hx : x.toNat < 2 ^ (c.n * c.s)) :
    x.sshiftRight 1 &&& keepMask c = x >>> 1 &&& keepMask c := by
  obtain hslack | hfull := c.fits.lt_or_eq
  · have hmsb : x.msb = false := by
      rw [BitVec.msb_eq_false_iff_two_mul_lt]
      calc 2 * x.toNat < 2 ^ (c.n * c.s + 1) := by omega
        _ ≤ 2 ^ c.w := Nat.pow_le_pow_right (by decide) hslack
    rw [BitVec.sshiftRight_eq_of_msb_false hmsb]
  · refine BitVec.eq_of_getLsbD_eq fun i hi => ?_
    rw [BitVec.getLsbD_and, BitVec.getLsbD_and]
    obtain rfl | hlt : i = c.w - 1 ∨ 1 + i < c.w := by omega
    · rw [keepMask_top hfull, Bool.and_false, Bool.and_false]
    · rw [BitVec.getLsbD_sshiftRight, BitVec.getLsbD_ushiftRight, decide_eq_false (by omega), if_pos hlt, Bool.not_false,
        Bool.true_and]

/-- Settles O14: the decay masks what the sign bit brings in. -/
theorem arithmeticShiftAgrees : Obligations.ArithmeticShiftAgrees := by
  intro c v k hk hv
  rw [sshiftRight_one_and_keepMask (sum_toNat_lt_of_WF hv hk)]
  rfl

/-! ### Fixed points -/

/-- `UNIT[k]` is what one increment makes of zero. -/
theorem nextValue_zero {k : Nat} (hk : k < c.n) : nextValue c 0 k = unit c k := by
  have hlt : value c 0 k < vmax c := by rw [value_zero]; exact vmax_pos c
  rw [nextValue_of_not_ovf (ovf_of_lt (WF_zero c) hk hlt), sum]
  exact BitVec.zero_add _

theorem WF_unit {k : Nat} (hk : k < c.n) : WF c (unit c k) = true :=
  nextValue_zero hk ▸ WF_nextValue (WF_zero c) hk

theorem value_unit {k : Nat} (hk : k < c.n) (j : Nat) : value c (unit c k) j = if j = k then 1 else 0 := by
  have hlt : value c 0 k < vmax c := by rw [value_zero]; exact vmax_pos c
  rw [← nextValue_zero hk, value_nextValue_of_lt (WF_zero c) hk hlt, value_zero, Nat.zero_add]

section FixedPoints

variable {v : BitVec c.w} {k : Nat} (hv : WF c v = true) (hk : k < c.n)

include hv hk

/-- At a fixed point slot `k` is at `VMAX`, and halving `VMAX + 1` gives `VMAX` back, so `VMAX = 1`. -/
theorem value_of_nextValue_eq_self (h : nextValue c v k = v) : value c v k = vmax c ∧ vmax c = 1 := by
  obtain hlt | hmax := (value_le_vmax c v k).lt_or_eq
  · have hinc := value_nextValue_of_lt hv hk hlt k
    rw [h, if_pos rfl] at hinc
    omega
  · have hself := value_nextValue_self_of_eq_vmax hv hk hmax
    have hodd := vmax_add_one_eq_two_mul c
    rw [h, hmax] at hself
    exact ⟨hmax, by omega⟩

/-- The other slots of a fixed point equal their own halves. -/
theorem eq_unit_of_nextValue_eq_self (h : nextValue c v k = v) : v = unit c k := by
  obtain ⟨hmax, hone⟩ := value_of_nextValue_eq_self hv hk h
  refine eq_of_value_eq hv (WF_unit hk) fun j hj => ?_
  have hhalf := value_nextValue_of_eq_vmax hv hk hmax hj
  rw [value_unit hk]
  split at hhalf
  · next he => rw [if_pos he, he, hmax, hone]
  · next he =>
    rw [h] at hhalf
    rw [if_neg he]
    omega

end FixedPoints

theorem nextValue_unit_of_vmax_eq_one {k : Nat} (hk : k < c.n) (hone : vmax c = 1) :
    nextValue c (unit c k) k = unit c k := by
  have hwf := WF_unit hk
  have hmax : value c (unit c k) k = vmax c := by rw [value_unit hk, if_pos rfl, hone]
  refine eq_of_value_eq (WF_nextValue hwf hk) hwf fun j hj => ?_
  rw [value_nextValue_of_eq_vmax hwf hk hmax hj, value_unit hk]
  split <;> rfl

/-- Settles O17: at a fixed point `VMAX = 1`, which is `S = 2`, and every other slot is its own half. -/
theorem fixedPointsOfNext : Obligations.FixedPointsOfNext := by
  intro c v k hk hv
  have hvmax := vmax_add_one c
  refine ⟨fun hs h => ?_, fun hs => ⟨eq_unit_of_nextValue_eq_self hv hk, ?_⟩⟩
  · have hone := (value_of_nextValue_eq_self hv hk h).2
    have hfour : 2 ^ 2 ≤ 2 ^ (c.s - 1) := Nat.pow_le_pow_right (by decide) (by omega)
    omega
  · rintro rfl
    rw [hs] at hvmax
    exact nextValue_unit_of_vmax_eq_one hk (by omega)

end Sys2Proof.Machine
end

section
/-! SUPPORT. Runs of increments from zero (R87): as long as no slot is counted past `VMAX` its value is its count. -/

namespace Sys2Proof.Machine

variable {c : Config}

theorem nextAll_concat (v : BitVec c.w) (ks : List Nat) (k : Nat) :
    nextAll c v (ks ++ [k]) = nextValue c (nextAll c v ks) k := nextAll_append v ks [k]

theorem WF_nextAll {v : BitVec c.w} (hv : WF c v = true) {ks : List Nat} (hks : ∀ k ∈ ks, k < c.n) :
    WF c (nextAll c v ks) = true := by
  induction ks generalizing v with
  | nil => exact hv
  | cons k ks ih =>
    obtain ⟨hk, hks⟩ := List.forall_mem_cons.mp hks
    exact ih (WF_nextValue hv hk) hks

theorem value_nextAll_zero {ks : List Nat} (hks : ∀ k ∈ ks, k < c.n) (hmax : ∀ k, k < c.n → ks.count k ≤ vmax c)
    (x : Nat) : value c (nextAll c 0 ks) x = ks.count x := by
  induction ks using List.reverseRecOn generalizing x with
  | nil => exact value_zero c x
  | append_singleton ks k ih =>
    have hks' : ∀ j ∈ ks, j < c.n := fun j hj => hks j (List.mem_append_left _ hj)
    have hk : k < c.n := hks k (by simp)
    have hval := ih hks' fun j hj => ((List.sublist_append_left ks [k]).count_le j).trans (hmax j hj)
    have hlt : value c (nextAll c 0 ks) k < vmax c := by
      have := hmax k hk
      rw [List.count_append, List.count_singleton_self] at this
      rw [hval]
      omega
    rw [nextAll_concat, value_nextValue_of_lt (WF_nextAll (WF_zero c) hks') hk hlt, hval, List.count_append,
      List.count_singleton]
    simp only [beq_iff_eq, eq_comm (a := x)]

/-- Nowhere in such a run is the slot about to be counted full. -/
theorem ovf_nextAll_zero_of_count_le {pre post : List Nat} {k : Nat} (hks : ∀ j ∈ pre ++ k :: post, j < c.n)
    (hmax : ∀ j, j < c.n → (pre ++ k :: post).count j ≤ vmax c) : ovf c (nextAll c 0 pre) k = false := by
  have hpre : ∀ j ∈ pre, j < c.n := fun j hj => hks j (List.mem_append_left _ hj)
  have hk : k < c.n := hks k (by simp)
  have hval := value_nextAll_zero hpre (fun j hj => ((List.sublist_append_left pre _).count_le j).trans (hmax j hj)) k
  have hcount := hmax k hk
  rw [List.count_append, List.count_cons_self] at hcount
  exact ovf_of_lt (WF_nextAll (WF_zero c) hpre) hk (by omega)

/-- Any counts of the slots below `n` are those of some list. -/
theorem exists_list_of_counts (f : Nat → Nat) (n : Nat) :
    ∃ ks : List Nat, (∀ k ∈ ks, k < n) ∧ ∀ k, k < n → ks.count k = f k := by
  induction n with
  | zero => exact ⟨[], by simp, by simp⟩
  | succ n ih =>
    obtain ⟨ks, hlt, hcount⟩ := ih
    refine ⟨ks ++ List.replicate (f n) n, fun k hk => ?_, fun k hk => ?_⟩
    · obtain h | h := List.mem_append.mp hk
      · exact Nat.lt_succ_of_lt (hlt k h)
      · rw [List.eq_of_mem_replicate h]
        exact Nat.lt_succ_self n
    · rw [List.count_append, List.count_replicate]
      obtain h | rfl := Nat.lt_succ_iff_lt_or_eq.mp hk
      · simp [hcount k h, h.ne']
      · have hnot : k ∉ ks := fun hmem => (hlt k hmem).false
        simp [List.count_eq_zero_of_not_mem hnot]

/-- Settles O18: increment each slot as often as its value says. -/
theorem wellFormedValuesAreReachable : Obligations.WellFormedValuesAreReachable := by
  intro c v hv
  obtain ⟨ks, hks, hcount⟩ := exists_list_of_counts (value c v) c.n
  have hmax : ∀ k, k < c.n → ks.count k ≤ vmax c := fun k hk => (hcount k hk).trans_le (value_le_vmax c v k)
  refine ⟨ks, hks, ?_, fun pre k post h => ?_⟩
  · exact eq_of_value_eq (WF_nextAll (WF_zero c) hks) hv fun j hj => (value_nextAll_zero hks hmax j).trans (hcount j hj)
  · subst h
    exact ovf_nextAll_zero_of_count_le hks hmax

end Sys2Proof.Machine
end

section
/-! SUPPORT. The two invariants of the engine in every reachable state (R79, R97): the step lemmas packaged once. -/

namespace Sys2Proof.Machine

/-- Settles O57: the engine is sound and explained after reset, laying down words and turns does not touch it, and each
step keeps both. -/
theorem reachableStatesAreSoundAndExplained : Obligations.ReachableStatesAreSoundAndExplained := by
  intro s hs
  induction hs with
  | start c v => exact ⟨sound_atReset c, explained_atReset c⟩
  | outside c e v v' before ih => exact ih
  | next s t before taken ih =>
    obtain ⟨hsound, hexplained⟩ := ih
    exact ⟨stepKeepsTheEngineSound s t hsound taken, stepKeepsTheHistoryExplained s t hsound hexplained taken⟩

end Sys2Proof.Machine
end

section
/-! SUPPORT. The command `INC` step by step (41_cas_update.md): what each turn of its port does, its frame (R89 to R94), the
whole command (R95, R152), and two swaps of one value (R103). -/

namespace Sys2Proof.Machine

variable {c : Config}

/-! ### A turn that is laid down -/

theorem step_laid_down_requester {e : Engine c} {v : Env c} {p : Fin c.p} {ts : List (Turn c)}
    (h : v.sched = .requester p :: ts) : step ⟨c, e, v⟩ = presentWord e { v with sched := ts } p :=
  step_requester (drawTurn_of_laid_down e v h)

theorem step_laid_down_port {e : Engine c} {v : Env c} {p : Fin c.p} {ts : List (Turn c)} (h : v.sched = .port p :: ts) :
    step ⟨c, e, v⟩ = portTurn e { v with sched := ts } p :=
  step_port (drawTurn_of_laid_down e v h)

/-- What a requester offers does not depend on the turns laid down. -/
theorem Env.offered_with_sched (v : Env c) (ts : List (Turn c)) (p : Fin c.p) :
    Env.offered { v with sched := ts } p = v.offered p := rfl

theorem Env.taken_with_sched (v : Env c) (ts : List (Turn c)) (p : Fin c.p) :
    Env.taken { v with sched := ts } p = { v.taken p with sched := ts } := by
  unfold Env.taken
  dsimp only
  cases v.inbox[p] with
  | cons w ws => rfl
  | nil => cases v.supply[p] <;> rfl

/-! ### A port read in an engine written out by its fields -/

theorem Engine.port_update_self (e : Engine c) (r : BitVec c.w) (p : Fin c.p) (x : Port c) (evs : List (Event c)) :
    Engine.port ⟨r, e.ports.set p.val x p.isLt, evs⟩ p = x := by
  rw [Engine.port_mk_set, if_pos rfl]

theorem Engine.port_update_of_ne (e : Engine c) (r : BitVec c.w) {p q : Fin c.p} (h : q ≠ p) (x : Port c)
    (evs : List (Event c)) : Engine.port ⟨r, e.ports.set p.val x p.isLt, evs⟩ q = e.port q := by
  rw [Engine.port_mk_set, if_neg h]
  rfl

/-! ### The turns of a port, by its phase -/

section Turns

variable {e : Engine c} {p : Fin c.p} (v : Env c)

theorem presentWord_of_inc {w : CmdWord} {k : SlotIx} (hidle : (e.port p).ph = .idle) (hw : v.offered p = some w)
    (hd : decode c w = .ok (.inc k)) :
    presentWord e v p = .next ⟨c, incAccept e p k, { v.taken p with act := p }⟩ := by
  have hk := Instr.wf_inc_iff.mp (encode_of_decode hd).2
  rw [presentWord_of_ok hidle hw hd, exec_inc, incStep_of_idle hidle hk]

theorem presentWord_of_busy (hbusy : (e.port p).ph ≠ .idle) :
    presentWord e v p = .next ⟨c, e, { v with act := p }⟩ := by
  obtain ⟨w, i, hidle, -⟩ | ⟨w, why, hidle, -⟩ | ⟨-, h⟩ := presentWord_cases e v p
  · exact absurd hidle hbusy
  · exact absurd hidle hbusy
  · exact h

theorem portTurn_of_incLoad (h : (e.port p).ph = .incLoad) :
    portTurn e v p = .next ⟨c, incLoad e p, { v with act := p }⟩ := by
  rw [portTurn_of_held (heldInstr_of_inc (.inl h)), exec_inc, incStep_of_incLoad h]

theorem portTurn_of_incCas (h : (e.port p).ph = .incCas) :
    portTurn e v p = .next ⟨c, incCas e p, { v with act := p }⟩ := by
  rw [portTurn_of_held (heldInstr_of_inc (.inr h)), exec_inc, incStep_of_incCas h]

theorem portTurn_of_ratioLoad (h : (e.port p).ph = .ratioLoad) :
    portTurn e v p = .next ⟨c, ratioLoad e p, { v with act := p }⟩ := by
  rw [portTurn_of_held (heldInstr_of_ratio h), exec_ratio, ratioStep_of_ratioLoad h]

theorem portTurn_of_done (h : (e.port p).ph = .done) :
    portTurn e v p = .next ⟨c, complete e p, { v with act := p }⟩ := by
  simp [portTurn, heldInstr, h]

theorem portTurn_of_idle (h : (e.port p).ph = .idle) : portTurn e v p = .next ⟨c, e, { v with act := p }⟩ := by
  simp [portTurn, heldInstr, h]

end Turns

theorem exec_of_done {e : Engine c} {v : Env c} (i : Instr) (h : (e.port v.act).ph = .done) :
    exec i ⟨c, e, v⟩ = .next ⟨c, complete e v.act, v⟩ := by
  cases i with
  | inc k => simp [exec_inc, incStep, h]
  | ratio a b => simp [exec_ratio, ratioStep, h]

/-! ### Each step of the command -/

/-- Settles O20: the word is the encoding of the command it decodes to, so `Accept` records it. -/
theorem incIsAccepted : Obligations.IncIsAccepted := by
  refine ⟨fun c e v v' p w k hturn hidle hw hd => ?_, fun c e v v' p hturn hbusy => ?_⟩
  · rw [step_requester hturn, presentWord_of_inc v' hidle hw hd, incAccept_eq, (encode_of_decode hd).1]
  · rw [step_requester hturn, presentWord_of_busy v' hbusy]

/-- Settles O21: the step of `INC_LOAD`. -/
theorem incLoadsTheRegister : Obligations.IncLoadsTheRegister := by
  rintro c e v k hph rfl
  rw [exec_inc, incStep_of_incLoad hph, incLoad_eq]

/-- Settles O22: the swap finds the value it expects. -/
theorem incSwapsWhenCurrent : Obligations.IncSwapsWhenCurrent := by
  rintro c e v k hph rfl hcur
  rw [exec_inc, incStep_of_incCas hph, incCas_of_current e v.act hcur, ← hcur]

/-- Settles O23: the swap finds another value. -/
theorem incRetriesWhenStale : Obligations.IncRetriesWhenStale := by
  rintro c e v k hph rfl hstale
  rw [exec_inc, incStep_of_incCas hph, incCas_of_stale e v.act hstale]

/-- Settles O24: both a turn of the port and either command's meaning are `COMPLETE`. -/
theorem donePortCompletes : Obligations.DonePortCompletes := by
  refine ⟨fun c e v v' p hturn hdone => ?_, fun c e v i hdone => ?_⟩
  · rw [step_port hturn, portTurn_of_done v' hdone, complete_eq]
  · rw [exec_of_done i hdone, complete_eq]

/-! ### The whole command -/

/-- A swap that directly follows the load finds the value loaded. -/
theorem incLoad_current (e : Engine c) (p : Fin c.p) : (incLoad e p).reg = ((incLoad e p).port p).cur := by
  simp [incLoad]

/-- The engine after an `INC k` that port `p` runs without interruption (R95). -/
def afterInc (e : Engine c) (p : Fin c.p) (k : SlotIx) : Engine c :=
  complete (incCas (incLoad (incAccept e p k) p) p) p

theorem afterInc_eq (e : Engine c) (p : Fin c.p) (k : SlotIx) :
    afterInc e p k = ⟨nextValue c e.reg k.toNat,
      e.ports.set p.val { e.port p with ph := .idle, opa := k, cur := e.reg, rsp := ⟨.ok, 0⟩ } p.isLt,
      e.hist ++ [.accept p (encode (.inc k)), .iload p e.reg, .casOk p e.reg (nextValue c e.reg k.toNat),
        .complete p .ok 0]⟩ := by
  rw [afterInc, incCas_of_current _ _ (incLoad_current _ p), incAccept_eq, incLoad_eq, complete_eq]
  simp [Engine.port_mk_set]

/-- Settles O25: the four turns are ACCEPT, ILOAD, the swap of the value just loaded, and COMPLETE. -/
theorem incAloneTakesFourSteps : Obligations.IncAloneTakesFourSteps := by
  intro c e v p k rest hk hidle hw hsched
  have hd := decode_encode (Instr.wf_inc_iff.mpr hk)
  have hrun : run 4 ⟨c, e, v⟩ = .next ⟨c, afterInc e p k, { v.taken p with act := p, sched := rest }⟩ := by
    have haccept := (step_laid_down_requester (e := e) hsched).trans
      (presentWord_of_inc _ hidle ((v.offered_with_sched _ p).trans hw) hd)
    rw [run_succ_of_next haccept, Env.taken_with_sched]
    rw [run_succ_of_next ((step_laid_down_port rfl).trans (portTurn_of_incLoad _ (by simp [incAccept])))]
    rw [run_succ_of_next ((step_laid_down_port rfl).trans (portTurn_of_incCas _ (by simp [incLoad])))]
    rw [run_succ_of_next ((step_laid_down_port rfl).trans (portTurn_of_done _ ?_))]
    · rfl
    · rw [incCas_of_current _ _ (incLoad_current _ p), Engine.port_update_self]
  refine ⟨afterInc e p k, hrun, ?_⟩
  rw [afterInc_eq]
  refine ⟨rfl, ?_, rfl, fun q hq => e.port_update_of_ne _ hq _ _⟩
  rw [Engine.port_update_self]

/-! ### The frame -/

/-- What a step of `INC k` at port `p` may change of the engine `e` (R89 to R94). -/
def IncFramed (e : Engine c) (p : Fin c.p) (k : SlotIx) (e' : Engine c) : Prop :=
  (∀ q, q ≠ p → e'.port q = e.port q) ∧ (e'.port p).opb = (e.port p).opb ∧
  ((e.port p).ph ≠ .idle → (e'.port p).opa = (e.port p).opa) ∧
  ((e.port p).ph ≠ .incLoad → (e'.port p).cur = (e.port p).cur) ∧
  (((e.port p).ph = .incCas ∧ (e.port p).opa = k ∧ e.reg = (e.port p).cur) ∨
    (e'.reg = e.reg ∧ (((e.port p).ph = .idle ∧ c.n ≤ k.toNat) ∨ (e'.port p).rsp = (e.port p).rsp))) ∧
  e.hist <+: e'.hist

theorem IncFramed.refl (e : Engine c) (p : Fin c.p) (k : SlotIx) : IncFramed e p k e :=
  ⟨fun _ _ => rfl, rfl, fun _ => rfl, fun _ => rfl, .inr ⟨rfl, .inr rfl⟩, List.prefix_rfl⟩

/-- A new register, a new port `p` and recorded events are framed by what is asked of the port's latches. -/
theorem IncFramed.update {e : Engine c} {p : Fin c.p} {k : SlotIx} {r : BitVec c.w} {x : Port c} (evs : List (Event c))
    (hopb : x.opb = (e.port p).opb) (hopa : (e.port p).ph ≠ .idle → x.opa = (e.port p).opa)
    (hcur : (e.port p).ph ≠ .incLoad → x.cur = (e.port p).cur)
    (hrsp : ((e.port p).ph = .incCas ∧ (e.port p).opa = k ∧ e.reg = (e.port p).cur) ∨
      (r = e.reg ∧ (((e.port p).ph = .idle ∧ c.n ≤ k.toNat) ∨ x.rsp = (e.port p).rsp))) :
    IncFramed e p k ⟨r, e.ports.set p.val x p.isLt, e.hist ++ evs⟩ := by
  rw [IncFramed, Engine.port_update_self]
  exact ⟨fun q hq => e.port_update_of_ne _ hq _ _, hopb, hopa, hcur, hrsp, List.prefix_append _ _⟩

theorem incStep_framed (e : Engine c) (p : Fin c.p) (k : SlotIx) : IncFramed e p k (incStep e p k) := by
  obtain ⟨hph, -, h⟩ | ⟨hph, hk, h⟩ | ⟨hph, -, h⟩ | ⟨hph, hopa, h⟩ | ⟨-, h⟩ | ⟨-, -, -, h⟩ := incStep_cases e p k <;>
    rw [h]
  · exact .update _ rfl (absurd hph) (fun _ => rfl) (.inr ⟨rfl, .inr rfl⟩)
  · exact .update _ rfl (fun _ => rfl) (fun _ => rfl) (.inr ⟨rfl, .inl ⟨hph, hk⟩⟩)
  · exact .update _ rfl (fun _ => rfl) (absurd hph) (.inr ⟨rfl, .inr rfl⟩)
  · by_cases hcur : e.reg = (e.port p).cur
    · rw [incCas_of_current e p hcur]
      exact .update _ rfl (fun _ => rfl) (fun _ => rfl) (.inl ⟨hph, hopa, hcur⟩)
    · rw [incCas_of_stale e p hcur]
      exact .update _ rfl (fun _ => rfl) (fun _ => rfl) (.inr ⟨rfl, .inr rfl⟩)
  · exact .update _ rfl (fun _ => rfl) (fun _ => rfl) (.inr ⟨rfl, .inr rfl⟩)
  · exact .refl e p k

/-- Settles O26: by what the command can do at its port. -/
theorem incFrame : Obligations.IncFrame := by
  intro c e e' v v' k h
  cases (exec_inc k e v).symm.trans h
  exact ⟨rfl, incStep_framed e v.act k⟩

/-! ### Two swaps of one value -/

/-- Settles O29: the first swap finds the common value and writes `NEXT` of it, which the second finds. -/
theorem ofTwoEqualSwapsTheFirstWins : Obligations.OfTwoEqualSwapsTheFirstWins := by
  intro c e v p q rest hne hp hpcur hq hqcur hsched
  have hfirst := (step_laid_down_port (e := e) hsched).trans (portTurn_of_incCas _ hp)
  rw [incCas_of_current e p hpcur.symm, hpcur] at hfirst
  set e₁ : Engine c := ⟨nextValue c e.reg (e.port p).opa.toNat, _, _⟩ with he₁
  have hport : e₁.port q = e.port q := e.port_update_of_ne _ hne.symm _ _
  have hdone : e₁.port p = { e.port p with rsp := ⟨.ok, 0⟩, ph := .done } := e.port_update_self _ _ _ _
  have hq₁ : (e₁.port q).ph = .incCas := by rw [hport, hq]
  refine ⟨incCas e₁ q, _, (run_succ_of_next hfirst).trans
    (run_succ_of_next ((step_laid_down_port rfl).trans (portTurn_of_incCas _ hq₁))), ?_⟩
  by_cases hcur : e₁.reg = (e₁.port q).cur
  · rw [incCas_of_current e₁ q hcur, Engine.port_update_self, Engine.port_update_of_ne _ _ hne, hdone, hport, hqcur]
    rw [hport, hqcur] at hcur
    exact ⟨rfl, rfl, fun hnew => absurd hcur hnew, fun _ => ⟨rfl, rfl⟩⟩
  · rw [incCas_of_stale e₁ q hcur, Engine.port_update_self, Engine.port_update_of_ne _ _ hne, hdone]
    rw [hport, hqcur] at hcur
    exact ⟨rfl, rfl, fun _ => ⟨rfl, rfl⟩, fun hold => absurd hold hcur⟩

end Sys2Proof.Machine
end

section
/-! SUPPORT. Why a finite workload ends (R101, R102): the work left of the commands in flight and the words waiting falls with
every enabled step, a successful swap paying for the failures it can cause (R100). -/

namespace Sys2Proof.Machine

variable {c : Config}

/-! ### A sum over the ports of which one pays for the others -/

/-- If one term falls by `a` up to `b` and each other one rises by at most `d`, so does the sum. -/
theorem sum_add_le_of_others {n : Nat} {f g : Fin n → Nat} {a b d : Nat} (p : Fin n) (hp : g p + a ≤ f p + b)
    (hothers : ∀ q, q ≠ p → g q ≤ f q + d) : ∑ q, g q + a ≤ ∑ q, f q + b + (n - 1) * d := by
  have hrest : ∑ q ∈ Finset.univ.erase p, g q ≤ ∑ q ∈ Finset.univ.erase p, f q + (n - 1) * d := calc
    _ ≤ ∑ q ∈ Finset.univ.erase p, (f q + d) := Finset.sum_le_sum fun q hq => hothers q (Finset.ne_of_mem_erase hq)
    _ = _ := by simp [Finset.sum_add_distrib, Finset.card_erase_of_mem]
  have hf := Finset.add_sum_erase Finset.univ f (Finset.mem_univ p)
  have hg := Finset.add_sum_erase Finset.univ g (Finset.mem_univ p)
  omega

/-! ### The work left of one port's command -/

section PortWork

variable {x : Port c} (r : BitVec c.w)

theorem portWork_of_incLoad (h : x.ph = .incLoad) : portWork r x = 3 + 2 * (c.p - 1) := by simp [portWork, h]

theorem portWork_of_current (h : x.ph = .incCas) (hcur : x.cur = r) : portWork r x = 2 + 2 * (c.p - 1) := by
  simp [portWork, h, hcur]

theorem portWork_of_stale (h : x.ph = .incCas) (hcur : x.cur ≠ r) : portWork r x = 4 + 2 * (c.p - 1) := by
  simp [portWork, h, hcur]

theorem portWork_of_ratioLoad (h : x.ph = .ratioLoad) : portWork r x = 2 := by simp [portWork, h]

theorem portWork_of_done (h : x.ph = .done) : portWork r x = 1 := by simp [portWork, h]

theorem portWork_eq_zero_iff : portWork r x = 0 ↔ x.ph = .idle := by
  cases h : x.ph with
  | incCas =>
    simp only [portWork, h]
    split <;> simp
  | _ => simp [portWork, h]

/-- Short of a swap, a port has at most the whole command before it. -/
theorem portWork_le_of_ne_incCas (h : x.ph ≠ .incCas) : portWork r x ≤ 3 + 2 * (c.p - 1) := by
  cases hx : x.ph with
  | idle => rw [(portWork_eq_zero_iff r).mpr hx]; omega
  | incLoad => exact (portWork_of_incLoad r hx).le
  | incCas => exact absurd hx h
  | ratioLoad => rw [portWork_of_ratioLoad r hx]; omega
  | done => rw [portWork_of_done r hx]; omega

/-- A write of the register costs another port at most one failed swap and the load after it. -/
theorem portWork_le_add_two (r r' : BitVec c.w) (x : Port c) : portWork r' x ≤ portWork r x + 2 := by
  cases h : x.ph with
  | incCas =>
    simp only [portWork, h]
    split <;> split <;> omega
  | _ => simp [portWork, h]

end PortWork

/-! ### The work left of the machine -/

/-- The part of `State.workBound` that is not laid-down turns: the commands in flight and the words waiting. -/
def pendingWork (e : Engine c) (v : Env c) : Nat :=
  ∑ p : Fin c.p, (portWork e.reg (e.port p) + (4 + 2 * (c.p - 1)) * v.inbox[p].length)

theorem workBound_eq (e : Engine c) (v : Env c) : State.workBound ⟨c, e, v⟩ = v.sched.length + pendingWork e v := by
  simp [State.workBound, pendingWork, Fin.sum_univ_def]

/-- Of the surroundings only the waiting words count. -/
theorem pendingWork_of_inbox_eq (e : Engine c) {v v' : Env c} (h : v'.inbox = v.inbox) :
    pendingWork e v' = pendingWork e v := by
  unfold pendingWork
  rw [h]

theorem Env.FiniteWorkload.of_supply_eq {v v' : Env c} (h : v.FiniteWorkload) (hs : v'.supply = v.supply) :
    v'.FiniteWorkload := by
  unfold Env.FiniteWorkload
  rw [hs]
  exact h

/-- With a finite workload no work is left exactly at the end of the run. -/
theorem pendingWork_eq_zero_iff {e : Engine c} {v : Env c} (hfin : v.FiniteWorkload) :
    pendingWork e v = 0 ↔ State.Finished ⟨c, e, v⟩ := by
  have hfactor : 4 + 2 * (c.p - 1) ≠ 0 := by omega
  simp only [pendingWork, Finset.sum_eq_zero_iff, Finset.mem_univ, true_imp_iff, Nat.add_eq_zero_iff,
    portWork_eq_zero_iff, Nat.mul_eq_zero, hfactor, false_or, List.length_eq_zero_iff, State.Finished,
    Env.offered_eq_none]
  exact forall_congr' fun p => by simp [hfin p]

theorem enabledTurns_eq_nil_iff {e : Engine c} {v : Env c} : enabledTurns e v = [] ↔ State.Finished ⟨c, e, v⟩ := by
  simp only [enabledTurns, List.filterMap_eq_nil_iff, List.mem_finRange, true_imp_iff, State.Finished]
  refine forall_congr' fun p => ?_
  unfold enabledTurn
  cases h : (e.port p).ph <;> simp

/-! ### Each step of a port lowers it -/

section Update

variable {e : Engine c} {v v' : Env c} (p : Fin c.p) {x : Port c} (evs : List (Event c))

/-- The register keeps its value: only port `p` and its list of words count. -/
theorem pendingWork_update_lt (hin : ∀ q, q ≠ p → v'.inbox[q] = v.inbox[q])
    (hp : portWork e.reg x + (4 + 2 * (c.p - 1)) * v'.inbox[p].length <
      portWork e.reg (e.port p) + (4 + 2 * (c.p - 1)) * v.inbox[p].length) :
    pendingWork ⟨e.reg, e.ports.set p.val x p.isLt, evs⟩ v' < pendingWork e v := by
  refine sum_add_le_of_others (a := 1) (b := 0) (d := 0) p ?_ fun q hq => ?_
  · rw [Engine.port_update_self]
    exact hp
  · rw [Engine.port_update_of_ne _ _ hq, hin q hq]
    rfl

theorem pendingWork_turn_lt (hp : portWork e.reg x < portWork e.reg (e.port p)) :
    pendingWork ⟨e.reg, e.ports.set p.val x p.isLt, evs⟩ v < pendingWork e v :=
  pendingWork_update_lt p evs (fun _ _ => rfl) (Nat.add_lt_add_right hp _)

/-- The register may change: port `p` pays for what the others must do again. -/
theorem pendingWork_swap_lt (r : BitVec c.w) (hp : portWork r x + 2 * (c.p - 1) < portWork e.reg (e.port p)) :
    pendingWork ⟨r, e.ports.set p.val x p.isLt, evs⟩ v < pendingWork e v := by
  have hsum := sum_add_le_of_others (a := 2 * (c.p - 1) + 1) (b := 0) (d := 2) p
    (f := fun q => portWork e.reg (e.port q) + (4 + 2 * (c.p - 1)) * v.inbox[q].length)
    (g := fun q => portWork r (Engine.port ⟨r, e.ports.set p.val x p.isLt, evs⟩ q) +
      (4 + 2 * (c.p - 1)) * v.inbox[q].length) ?_ fun q hq => ?_
  · simp only [pendingWork]
    omega
  · rw [Engine.port_update_self]
    omega
  · have := portWork_le_add_two e.reg r (e.port q)
    rw [Engine.port_update_of_ne _ _ hq]
    omega

end Update

theorem incCas_pendingWork_lt {e : Engine c} {p : Fin c.p} (hph : (e.port p).ph = .incCas) (v : Env c) :
    pendingWork (incCas e p) v < pendingWork e v := by
  by_cases hcur : e.reg = (e.port p).cur
  · rw [incCas_of_current e p hcur]
    refine pendingWork_swap_lt p _ _ ?_
    rw [portWork_of_current _ hph hcur.symm, portWork_of_done _ rfl]
    omega
  · rw [incCas_of_stale e p hcur]
    refine pendingWork_turn_lt p _ ?_
    rw [portWork_of_stale _ hph (Ne.symm hcur), portWork_of_incLoad _ rfl]
    omega

theorem portTurn_pendingWork_lt {e e' : Engine c} {v v' : Env c} {p : Fin c.p} (hbusy : (e.port p).ph ≠ .idle)
    (h : portTurn e v p = .next ⟨c, e', v'⟩) : pendingWork e' v' < pendingWork e v := by
  cases hph : (e.port p).ph with
  | idle => exact absurd hph hbusy
  | incLoad =>
    cases (portTurn_of_incLoad v hph).symm.trans h
    refine pendingWork_turn_lt (v := v) p _ ?_
    rw [portWork_of_incLoad _ hph, portWork_of_current _ rfl (Engine.load_eq e)]
    omega
  | incCas =>
    cases (portTurn_of_incCas v hph).symm.trans h
    exact incCas_pendingWork_lt hph v
  | ratioLoad =>
    cases (portTurn_of_ratioLoad v hph).symm.trans h
    refine pendingWork_turn_lt (v := v) p _ ?_
    rw [portWork_of_ratioLoad _ hph, portWork_of_done _ rfl]
    omega
  | done =>
    cases (portTurn_of_done v hph).symm.trans h
    refine pendingWork_turn_lt (v := v) p _ ?_
    rw [portWork_of_done _ hph, (portWork_eq_zero_iff _).mpr rfl]
    omega

/-- The word a requester with a finite workload presents is the head of its list. -/
theorem Env.FiniteWorkload.inbox_of_offered {v : Env c} (h : v.FiniteWorkload) {p : Fin c.p} (hw : v.offered p ≠ none) :
    ∃ w ws, v.inbox[p] = w :: ws := by
  refine List.exists_cons_of_ne_nil fun hnil => hw ?_
  rw [Env.offered_eq_none]
  exact ⟨hnil, h p⟩

/-- Accepting a word costs one word waiting, which counts more than any command that begins. -/
theorem pendingWork_accept_lt {e : Engine c} {v : Env c} (hfin : v.FiniteWorkload) {p : Fin c.p}
    (hw : v.offered p ≠ none) {x : Port c} (hx : x.ph ≠ .incCas) (evs : List (Event c)) :
    pendingWork ⟨e.reg, e.ports.set p.val x p.isLt, evs⟩ { v.taken p with act := p } < pendingWork e v := by
  refine pendingWork_update_lt p _ (fun q hq => v.taken_inbox_of_ne hq) ?_
  obtain ⟨w, ws, hin⟩ := hfin.inbox_of_offered hw
  have htaken : (v.taken p).inbox[p] = ws := by simp [Env.taken_of_inbox hin]
  have := portWork_le_of_ne_incCas e.reg hx
  simp only [htaken, hin, List.length_cons, Nat.mul_succ]
  omega

theorem presentWord_pendingWork_lt {e e' : Engine c} {v v' : Env c} (hfin : v.FiniteWorkload) {p : Fin c.p}
    (hidle : (e.port p).ph = .idle) (hw : v.offered p ≠ none) (h : presentWord e v p = .next ⟨c, e', v'⟩) :
    pendingWork e' v' < pendingWork e v := by
  obtain ⟨w, i, -, -, hd, hrun⟩ | ⟨w, why, -, -, -, hrun⟩ | ⟨hnot, -⟩ := presentWord_cases e v p
  · have hwf := (encode_of_decode hd).2
    cases i with
    | inc k =>
      rw [hrun, exec_inc, incStep_of_idle hidle (Instr.wf_inc_iff.mp hwf)] at h
      cases h
      exact pendingWork_accept_lt hfin hw (by simp) _
    | ratio a b =>
      rw [hrun, exec_ratio, ratioStep_of_idle hidle (Instr.wf_ratio_iff.mp hwf)] at h
      cases h
      exact pendingWork_accept_lt hfin hw (by simp) _
  · cases hrun.symm.trans h
    exact pendingWork_accept_lt hfin hw (by simp) _
  · exact absurd hnot (by simp [hidle, hw])

/-! ### Each step of the machine -/

/-- What a step leaves of the surroundings once the turn is drawn. -/
theorem step_surroundings {e e' : Engine c} {v v' : Env c} (h : step ⟨c, e, v⟩ = .next ⟨c, e', v'⟩) :
    v'.sched = (drawTurn e v).2.sched ∧ v'.supply = v.supply ∧ v'.round = v.round := by
  obtain ⟨-, hrun⟩ | ⟨p, -, hrun⟩ | ⟨p, -, hrun⟩ | ⟨-, hrun⟩ := step_cases e v <;> rw [hrun] at h
  · cases h
    simp
  · obtain ⟨w, i, -, -, -, hp⟩ | ⟨w, why, -, -, -, hp⟩ | ⟨-, hp⟩ := presentWord_cases e (drawTurn e v).2 p <;>
      rw [hp] at h
    · cases i <;> cases h <;> simp
    · cases h
      simp
    · cases h
      simp
  · obtain ⟨-, hp⟩ | ⟨-, hp⟩ | ⟨-, hp⟩ | ⟨-, hp⟩ := portTurn_cases e (drawTurn e v).2 p <;> rw [hp] at h <;> cases h <;>
      simp
  · cases h
    simp

theorem drawTurn_pendingWork (e e' : Engine c) (v : Env c) : pendingWork e' (drawTurn e v).2 = pendingWork e' v :=
  pendingWork_of_inbox_eq e' (drawTurn_inbox e v)

theorem drawTurn_finiteWorkload {v : Env c} (h : v.FiniteWorkload) (e : Engine c) : (drawTurn e v).2.FiniteWorkload :=
  h.of_supply_eq (drawTurn_supply e v)

theorem drawTurn_offered_ne_none {v : Env c} {p : Fin c.p} (h : v.offered p ≠ none) (e : Engine c) :
    (drawTurn e v).2.offered p ≠ none := by
  rw [Ne, Env.offered_eq_none] at h ⊢
  simpa using h

/-- An enabled step lowers the work left. -/
theorem step_pendingWork_lt {e e' : Engine c} {v v' : Env c} (hfin : v.FiniteWorkload)
    (h : step ⟨c, e, v⟩ = .next ⟨c, e', v'⟩) {t : Turn c} (hturn : (drawTurn e v).1 = some t)
    (henabled : t ∈ enabledTurns e v) : pendingWork e' v' < pendingWork e v := by
  obtain ⟨p, hp⟩ := (mem_enabledTurns e v t).mp henabled
  rw [← drawTurn_pendingWork e e v]
  obtain ⟨hbusy, rfl⟩ | ⟨hidle, hw, rfl⟩ := (enabledTurn_eq_some e v p t).mp hp
  · rw [step_port (Prod.ext hturn rfl)] at h
    exact portTurn_pendingWork_lt hbusy h
  · rw [step_requester (Prod.ext hturn rfl)] at h
    exact presentWord_pendingWork_lt (drawTurn_finiteWorkload hfin e) hidle (drawTurn_offered_ne_none hw e) h

theorem pendingWork_atReset_le (e : Engine c) (v : Env c) : pendingWork (Engine.atReset c) v ≤ pendingWork e v := by
  refine Finset.sum_le_sum fun p _ => Nat.add_le_add_right ?_ _
  rw [(portWork_eq_zero_iff _).mpr (by simp)]
  exact Nat.zero_le _

/-- No step adds to the work left: it is enabled, a reset, or passes. -/
theorem step_pendingWork_le {e e' : Engine c} {v v' : Env c} (hfin : v.FiniteWorkload)
    (h : step ⟨c, e, v⟩ = .next ⟨c, e', v'⟩) : pendingWork e' v' ≤ pendingWork e v := by
  rw [← drawTurn_pendingWork e e v]
  obtain ⟨-, hrun⟩ | ⟨p, hturn, hrun⟩ | ⟨p, hturn, hrun⟩ | ⟨-, hrun⟩ := step_cases e v <;> rw [hrun] at h
  · cases h
    exact le_rfl
  · by_cases hen : (e.port p).ph = .idle ∧ (drawTurn e v).2.offered p ≠ none
    · exact (presentWord_pendingWork_lt (drawTurn_finiteWorkload hfin e) hen.1 hen.2 h).le
    · obtain ⟨w, i, hidle, hw, -⟩ | ⟨w, why, hidle, hw, -⟩ | ⟨-, hpass⟩ := presentWord_cases e (drawTurn e v).2 p
      · exact absurd ⟨hidle, by simp [hw]⟩ hen
      · exact absurd ⟨hidle, by simp [hw]⟩ hen
      · cases hpass.symm.trans h
        exact le_rfl
  · by_cases hidle : (e.port p).ph = .idle
    · cases (portTurn_of_idle _ hidle).symm.trans h
      exact le_rfl
    · exact (portTurn_pendingWork_lt hidle h).le
  · cases h
    exact pendingWork_atReset_le e _

/-- A step leads to a state of the same configuration. -/
theorem exists_step (e : Engine c) (v : Env c) : ∃ e' v', step ⟨c, e, v⟩ = .next ⟨c, e', v'⟩ := by
  obtain ⟨e', v', h, -⟩ := step_leadsToSpecStep e v
  exact ⟨e', v', h⟩

/-! ### A finite workload with no round of turns -/

/-- With no round laid down every step but those at the end counts. -/
theorem step_workBound_le {e e' : Engine c} {v v' : Env c} (hfin : v.FiniteWorkload) (hround : v.round = [])
    (h : step ⟨c, e, v⟩ = .next ⟨c, e', v'⟩) :
    State.workBound ⟨c, e', v'⟩ ≤ State.workBound ⟨c, e, v⟩ - 1 := by
  obtain ⟨hsched, -, -⟩ := step_surroundings h
  have hle := step_pendingWork_le hfin h
  rw [workBound_eq, workBound_eq, hsched]
  obtain ⟨t, ts, hlaid | ⟨-, hlaid⟩, hdraw⟩ | ⟨hnil, -, hnone, hdraw⟩ | ⟨hnil, -, t, hmem, hdraw⟩ := drawTurn_cases e v
  · rw [hdraw, hlaid, List.length_cons]
    dsimp only
    omega
  · rw [hround] at hlaid
    cases hlaid
  · have hzero := (pendingWork_eq_zero_iff hfin).mpr (enabledTurns_eq_nil_iff.mp hnone)
    rw [hdraw]
    dsimp only
    rw [hnil, List.length_nil]
    omega
  · have hturn : (drawTurn e v).1 = some t ∧ (drawTurn e v).2.sched = v.sched := by
      obtain hdraw | hdraw := hdraw <;> simp [hdraw]
    have hlt := step_pendingWork_lt hfin h hturn.1 hmem
    rw [hturn.2]
    omega

theorem run_finished (n : Nat) {e : Engine c} {v : Env c} (hfin : v.FiniteWorkload) (hround : v.round = [])
    (hbound : State.workBound ⟨c, e, v⟩ ≤ n) : ∃ t : State, run n ⟨c, e, v⟩ = .next t ∧ t.Finished := by
  induction n generalizing e v with
  | zero =>
    rw [workBound_eq] at hbound
    exact ⟨_, rfl, (pendingWork_eq_zero_iff hfin).mp (by omega)⟩
  | succ n ih =>
    obtain ⟨e', v', h⟩ := exists_step e v
    obtain ⟨-, hsupply, hround'⟩ := step_surroundings h
    have hle := step_workBound_le hfin hround h
    rw [run_succ_of_next h]
    exact ih (hfin.of_supply_eq hsupply) (hround'.trans hround) (by omega)

/-! ### A fair order of turns -/

/-- Setting any port to a phase that is not `IDLE` leaves a busy port busy. -/
theorem busy_update {e : Engine c} {p : Fin c.p} (hbusy : (e.port p).ph ≠ .idle) (q : Fin c.p) {x : Port c}
    (hx : x.ph ≠ .idle) (r : BitVec c.w) (evs : List (Event c)) :
    (Engine.port ⟨r, e.ports.set q.val x q.isLt, evs⟩ p).ph ≠ .idle := by
  rw [Engine.port_mk_set]
  split
  · exact hx
  · exact hbusy

/-- A busy port stays busy or its command ends. -/
theorem SpecStep.busy_or_ended {e e' : Engine c} (hs : SpecStep e e') {p : Fin c.p} (hbusy : (e.port p).ph ≠ .idle) :
    (e'.port p).ph ≠ .idle ∨ ((e'.port p).ph = .idle ∧
      (e'.hist = [.reset] ∨ ∃ st d, e'.hist.getLast? = some (.complete p st d))) := by
  cases hs with
  | complete q =>
    by_cases hq : p = q
    · subst hq
      exact .inr ⟨by rw [Engine.port_update_self], .inr ⟨_, _, List.getLast?_concat ..⟩⟩
    · rw [Engine.port_update_of_ne _ _ hq]
      exact .inl hbusy
  | reset _ _ idle begun => exact .inr ⟨idle p, .inl begun⟩
  | acceptInc q | acceptRatio q | acceptIllegal q | iload q | casOk q | casFail q | rload q =>
    exact .inl (busy_update hbusy q (by simp) _ _)

theorem CommandEnds.of_run {m : Nat} {e e₁ : Engine c} {v v₁ : Env c} {p : Fin c.p}
    (h : run m ⟨c, e, v⟩ = .next ⟨c, e₁, v₁⟩) (hends : CommandEnds c e₁ v₁ p) : CommandEnds c e v p := by
  obtain ⟨n, e', v', hrun, hend⟩ := hends
  exact ⟨n + m, e', v', (run_add_of_next h).trans hrun, hend⟩

theorem WeaklyFair.of_run {m : Nat} {e e₁ : Engine c} {v v₁ : Env c} (h : run m ⟨c, e, v⟩ = .next ⟨c, e₁, v₁⟩)
    (hfair : WeaklyFair c e v) : WeaklyFair c e₁ v₁ :=
  fun n e₂ v₂ p hrun => hfair (n + m) e₂ v₂ p ((run_add_of_next h).trans hrun)

theorem run_one {s t : State} (h : step s = .next t) : run 1 s = .next t := run_succ_of_next h

theorem step_busy_or_commandEnds {e e' : Engine c} {v v' : Env c} (h : step ⟨c, e, v⟩ = .next ⟨c, e', v'⟩) {p : Fin c.p}
    (hbusy : (e.port p).ph ≠ .idle) : (e'.port p).ph ≠ .idle ∨ CommandEnds c e v p := by
  obtain ⟨e₁, v₁, hnext, rfl | hspec⟩ := step_leadsToSpecStep e v <;> cases hnext.symm.trans h
  · exact .inl hbusy
  · exact (hspec.busy_or_ended hbusy).imp_right fun hend => ⟨1, e', v', run_one h, hend⟩

/-- Along a run a busy port stays busy until its command ends. -/
theorem run_busy_or_commandEnds (m : Nat) {e e' : Engine c} {v v' : Env c} (h : run m ⟨c, e, v⟩ = .next ⟨c, e', v'⟩)
    {p : Fin c.p} (hbusy : (e.port p).ph ≠ .idle) : (e'.port p).ph ≠ .idle ∨ CommandEnds c e v p := by
  induction m generalizing e v with
  | zero =>
    cases h
    exact .inl hbusy
  | succ m ih =>
    obtain ⟨e₁, v₁, hstep⟩ := exists_step e v
    rw [run_succ_of_next hstep] at h
    obtain hbusy₁ | hends := step_busy_or_commandEnds hstep hbusy
    · exact (ih h hbusy₁).imp_right (CommandEnds.of_run (run_one hstep))
    · exact .inr hends

theorem run_keeps_finiteWorkload (m : Nat) {e e' : Engine c} {v v' : Env c} (h : run m ⟨c, e, v⟩ = .next ⟨c, e', v'⟩)
    (hfin : v.FiniteWorkload) : v'.FiniteWorkload ∧ pendingWork e' v' ≤ pendingWork e v := by
  induction m generalizing e v with
  | zero =>
    cases h
    exact ⟨hfin, le_rfl⟩
  | succ m ih =>
    obtain ⟨e₁, v₁, hstep⟩ := exists_step e v
    obtain ⟨-, hsupply, -⟩ := step_surroundings hstep
    rw [run_succ_of_next hstep] at h
    obtain ⟨hfin', hle⟩ := ih h (hfin.of_supply_eq hsupply)
    exact ⟨hfin', hle.trans (step_pendingWork_le hfin hstep)⟩

/-- Under weak fairness the command of a busy port ends: its turn comes, and each of its turns lowers the work left. -/
theorem commandEnds_of_weaklyFair {e : Engine c} {v : Env c} {p : Fin c.p} (hfin : v.FiniteWorkload)
    (hfair : WeaklyFair c e v) (hbusy : (e.port p).ph ≠ .idle) : CommandEnds c e v p := by
  induction hn : pendingWork e v using Nat.strong_induction_on generalizing e v with
  | _ n ih =>
    obtain ⟨m, e₁, v₁, hrun, hturn⟩ := hfair 0 e v p rfl hbusy
    obtain hbusy₁ | hends := run_busy_or_commandEnds m hrun hbusy
    · have hdraw := hturn.resolve_left hbusy₁
      obtain ⟨hfin₁, hle⟩ := run_keeps_finiteWorkload m hrun hfin
      obtain ⟨e₂, v₂, hstep⟩ := exists_step e₁ v₁
      obtain ⟨-, hsupply, -⟩ := step_surroundings hstep
      refine CommandEnds.of_run hrun ?_
      obtain hbusy₂ | hends := step_busy_or_commandEnds hstep hbusy₁
      · have hlt := step_pendingWork_lt hfin₁ hstep hdraw
          ((mem_enabledTurns _ _ _).mpr ⟨p, (enabledTurn_eq_some _ _ _ _).mpr (.inl ⟨hbusy₁, rfl⟩)⟩)
        have hfin₂ := hfin₁.of_supply_eq hsupply
        have hfair₂ := (hfair.of_run hrun).of_run (run_one hstep)
        exact CommandEnds.of_run (run_one hstep) (ih _ (by omega) hfin₂ hfair₂ hbusy₂ rfl)
      · exact hends
    · exact hends

/-- Settles O58: the work left bounds the run when no round is laid down, and falls with each turn a fair order gives. -/
theorem finiteWorkloadEnds : Obligations.FiniteWorkloadEnds :=
  ⟨fun _ _ _ hfin hround => run_finished _ hfin hround le_rfl,
    fun _ _ _ _ hfin hfair hbusy => commandEnds_of_weaklyFair hfin hfair hbusy⟩

end Sys2Proof.Machine
end

section
/-! SUPPORT. An explained history read event by event: each failed swap has a winner, failures are bounded by successes
(R100), and no increment is lost or counted twice (R98, R144). -/

namespace Sys2Proof.Machine

variable {c : Config}

/-! ### What an event of a port says of the port -/

/-- The events of port `p`, each with the progress it finds and the progress it leaves (R89 to R94, R107, R108). -/
inductive PortEvent (p : Fin c.p) : Progress c → Event c → Progress c → Prop where
  | accept (w : CmdWord) : PortEvent p .idle (.accept p w) (.begin c w)
  | iload (k : SlotIx) (v : BitVec c.w) : PortEvent p (.incLoad k) (.iload p v) (.incCas k v)
  | casOk (k : SlotIx) (v : BitVec c.w) :
      PortEvent p (.incCas k v) (.casOk p v (nextValue c v k.toNat)) (.done ⟨.ok, 0⟩)
  | casFail (k : SlotIx) (v : BitVec c.w) : PortEvent p (.incCas k v) (.casFail p v) (.incLoad k)
  | rload (a b : SlotIx) (v : BitVec c.w) :
      PortEvent p (.ratioLoad a b) (.rload p v) (.done ⟨.ok, ratioData c v a.toNat b.toNat⟩)
  | complete (r : Response c) : PortEvent p (.done r) (.complete p r.status r.data) .idle

theorem portEvent_of_after {p : Fin c.p} {m m' : Progress c} {ev : Event c} (hp : ev.port? = some p)
    (h : m.after p ev = some m') : PortEvent p m ev m' := by
  cases ev with
  | reset => cases hp
  | accept q w =>
    cases hp
    cases m <;> simp [Progress.after] at h
    exact h ▸ .accept w
  | iload q v =>
    cases hp
    cases m <;> simp [Progress.after] at h
    exact h ▸ .iload _ v
  | casOk q old new =>
    cases hp
    cases m <;> simp [Progress.after] at h
    obtain ⟨⟨rfl, rfl⟩, rfl⟩ := h
    exact .casOk _ _
  | casFail q v =>
    cases hp
    cases m <;> simp [Progress.after] at h
    obtain ⟨rfl, rfl⟩ := h
    exact .casFail _ _
  | rload q v =>
    cases hp
    cases m <;> simp [Progress.after] at h
    exact h ▸ .rload _ _ v
  | complete q st d =>
    cases hp
    cases m <;> simp [Progress.after] at h
    obtain ⟨rfl, rfl⟩ := h
    exact .complete _

theorem PortEvent.loaded {p : Fin c.p} {m m' : Progress c} {v : BitVec c.w} (h : PortEvent p m (.iload p v) m') :
    ∃ k, m' = .incCas k v := by
  cases h with
  | iload k => exact ⟨k, rfl⟩

theorem PortEvent.failed {p : Fin c.p} {m m' : Progress c} {v : BitVec c.w} (h : PortEvent p m (.casFail p v) m') :
    ∃ k, m = .incCas k v := by
  cases h with
  | casFail k => exact ⟨k, rfl⟩

theorem Event.eq_reset_of_port?_eq_none {ev : Event c} (h : ev.port? = none) : ev = .reset := by
  cases ev with
  | reset => rfl
  | _ => cases h

theorem Progress.eq_of_after_of_port_ne {ev : Event c} {p q : Fin c.p} (hp : ev.port? = some p) (hq : q ≠ p)
    {m m' : Progress c} (h : m.after q ev = some m') : m' = m := by
  rw [Progress.after_of_port_ne hp hq] at h
  exact (Option.some.inj h).symm

theorem Progress.begin_ne_incCas (w : CmdWord) (k : SlotIx) (v : BitVec c.w) : Progress.begin c w ≠ .incCas k v := by
  unfold Progress.begin
  split <;> simp

/-! ### What an event says of the register -/

/-- Only a successful swap and reset change the register. -/
theorem regAfter_eq {r r' : BitVec c.w} {ev : Event c} (h : regAfter r ev = some r') (hreset : ev ≠ .reset)
    (hswap : ∀ q old new, ev ≠ .casOk q old new) : r' = r := by
  cases ev with
  | reset => exact absurd rfl hreset
  | casOk q old new => exact absurd rfl (hswap q old new)
  | accept | complete => exact (Option.some.inj h).symm
  | iload | casFail | rload =>
    simp only [regAfter] at h
    split at h
    all_goals simp_all

theorem regAfterAll_eq {r r' : BitVec c.w} {evs : List (Event c)} (h : regAfterAll r evs = some r')
    (hreset : .reset ∉ evs) (hswap : ∀ q old new, Event.casOk q old new ∉ evs) : r' = r := by
  induction evs generalizing r with
  | nil => exact (Option.some.inj h).symm
  | cons ev evs ih =>
    simp only [List.mem_cons, not_or] at hreset hswap
    obtain ⟨r₁, hev, hevs⟩ := Option.bind_eq_some_iff.mp h
    rw [ih hevs hreset.2 fun q old new => (hswap q old new).2]
    exact regAfter_eq hev (Ne.symm hreset.1) fun q old new => Ne.symm (hswap q old new).1

/-! ### A history read by the register and by every port at once -/

/-- Read from register `r` and progress `m` of every port, the events lead to register `r'` and progress `m'`. -/
def ReadsTo (r : BitVec c.w) (m : Fin c.p → Progress c) (evs : List (Event c)) (r' : BitVec c.w)
    (m' : Fin c.p → Progress c) : Prop :=
  regAfterAll r evs = some r' ∧ ∀ p, (m p).afterAll p evs = some (m' p)

theorem ReadsTo.nil {r r' : BitVec c.w} {m m' : Fin c.p → Progress c} (h : ReadsTo r m [] r' m') : r' = r ∧ m' = m :=
  ⟨(Option.some.inj h.1).symm, funext fun p => (Option.some.inj (h.2 p)).symm⟩

theorem ReadsTo.append {r r' : BitVec c.w} {m m' : Fin c.p → Progress c} {xs ys : List (Event c)}
    (h : ReadsTo r m (xs ++ ys) r' m') : ∃ r₁ m₁, ReadsTo r m xs r₁ m₁ ∧ ReadsTo r₁ m₁ ys r' m' := by
  obtain ⟨hreg, hprog⟩ := h
  simp only [regAfterAll_append, progress_afterAll_append, Option.bind_eq_some_iff] at hreg hprog
  obtain ⟨r₁, hxs, hys⟩ := hreg
  choose m₁ hm hm' using hprog
  exact ⟨r₁, m₁, ⟨hxs, hm⟩, hys, hm'⟩

theorem ReadsTo.cons {r r' : BitVec c.w} {m m' : Fin c.p → Progress c} {ev : Event c} {evs : List (Event c)}
    (h : ReadsTo r m (ev :: evs) r' m') :
    ∃ r₁ m₁, regAfter r ev = some r₁ ∧ (∀ p, (m p).after p ev = some (m₁ p)) ∧ ReadsTo r₁ m₁ evs r' m' := by
  obtain ⟨hreg, hprog⟩ := h
  simp only [regAfterAll, Progress.afterAll, Option.bind_eq_some_iff] at hreg hprog
  obtain ⟨r₁, hev, hevs⟩ := hreg
  choose m₁ hm hm' using hprog
  exact ⟨r₁, m₁, hev, hm, hevs, hm'⟩

theorem Engine.Explained.readsTo {e : Engine c} (h : e.Explained) :
    ReadsTo 0 (fun _ => .idle) e.hist e.reg (fun p => (e.port p).progress) :=
  ⟨h.2.2.1, h.2.2.2⟩

/-- What follows the `Reset` an explained history begins with. -/
theorem Engine.Explained.exists_tail {e : Engine c} (h : e.Explained) : ∃ evs, e.hist = .reset :: evs ∧ .reset ∉ evs ∧
    ReadsTo 0 (fun _ => .idle) evs e.reg (fun p => (e.port p).progress) := by
  have hreads := h.readsTo
  obtain ⟨hhead, htail, -, -⟩ := h
  obtain ⟨evs, hhist⟩ := List.head?_eq_some_iff.mp hhead
  rw [hhist] at htail hreads
  exact ⟨evs, hhist, htail, hreads⟩

/-! ### Every failure has a winner -/

/-- A port that is about to swap and has not just loaded was about to swap before, and the event was another port's. -/
theorem incCas_before {p : Fin c.p} {m : Progress c} {ev : Event c} {k : SlotIx} {v : BitVec c.w}
    (h : m.after p ev = some (.incCas k v)) (hload : ∀ z, ev ≠ .iload p z) :
    m = .incCas k v ∧ ev ≠ .reset ∧ ev.port? ≠ some p := by
  cases hp : ev.port? with
  | none =>
    rw [Event.eq_reset_of_port?_eq_none hp] at h
    cases h
  | some q =>
    by_cases hq : q = p
    · subst hq
      generalize hm : Progress.incCas k v = m' at h
      cases portEvent_of_after hp h with
      | accept w => exact absurd hm.symm (Progress.begin_ne_incCas w k v)
      | iload k v => exact absurd rfl (hload v)
      | casOk | casFail | rload | complete => cases hm
    · rw [Progress.after_of_port_ne hp (Ne.symm hq)] at h
      exact ⟨Option.some.inj h, Event.ne_reset_of_port hp, by simpa using hq⟩

theorem incCas_before_all {p : Fin c.p} {m : Progress c} {evs : List (Event c)} {k : SlotIx} {v : BitVec c.w}
    (h : m.afterAll p evs = some (.incCas k v)) (hload : ∀ z, Event.iload p z ∉ evs) :
    m = .incCas k v ∧ ∀ ev ∈ evs, ev ≠ .reset ∧ ev.port? ≠ some p := by
  induction evs generalizing m with
  | nil => exact ⟨Option.some.inj h, by simp⟩
  | cons ev evs ih =>
    simp only [List.mem_cons, not_or] at hload
    obtain ⟨m₁, hev, hevs⟩ := Option.bind_eq_some_iff.mp h
    obtain ⟨rfl, hrest⟩ := ih hevs fun z => (hload z).2
    obtain ⟨hm, hfirst⟩ := incCas_before hev fun z => Ne.symm (hload z).1
    exact ⟨hm, List.forall_mem_cons.mpr ⟨hfirst, hrest⟩⟩

/-- Settles O27: the port is about to swap what it loaded all the way to the failure, so the events between are other
ports', and without a successful swap among them the register would still hold what it loaded. -/
theorem everyFailureHasAWinner : Obligations.EveryFailureHasAWinner := by
  intro c e p x y before between after hexplained hhist hload
  have hreads := hexplained.readsTo
  rw [hhist] at hreads
  obtain ⟨r₃, m₃, hreads, hfailure⟩ := hreads.append
  obtain ⟨r₁, m₁, -, hreads⟩ := hreads.append
  obtain ⟨r₂, m₂, hregLoad, hload₂, hregBetween, hbetween⟩ := hreads.cons
  obtain ⟨r₄, m₄, hregFail, hfail, -⟩ := hfailure.cons
  obtain ⟨k, hk⟩ := (portEvent_of_after rfl (hload₂ p)).loaded
  obtain ⟨j, hj⟩ := (portEvent_of_after rfl (hfail p)).failed
  obtain ⟨hsame, hothers⟩ := incCas_before_all (hj ▸ hbetween p) hload
  obtain ⟨-, rfl⟩ : k = j ∧ x = y := by simpa [hk] using hsame
  refine ⟨rfl, ?_⟩
  by_contra hnone
  have hswap : ∀ q old new, Event.casOk q old new ∉ between := fun q old new hmem => by
    have hq := (hothers _ hmem).2
    exact hnone ⟨q, old, new, by simpa [Event.port?] using hq, hmem⟩
  obtain ⟨rfl, rfl⟩ : x = r₁ ∧ r₁ = r₂ := by simpa [regAfter] using hregLoad
  have hkept : r₃ = x := regAfterAll_eq hregBetween (fun hmem => (hothers _ hmem).1 rfl) hswap
  simp [regAfter, hkept] at hregFail

/-! ### Failures are bounded by successes -/

/-- One for a port about to swap a value that is not the register's. -/
def Progress.stale (r : BitVec c.w) : Progress c → Nat
  | .incCas _ v => if v = r then 0 else 1
  | .idle | .incLoad _ | .ratioLoad _ _ | .done _ => 0

theorem Progress.stale_le_one (r : BitVec c.w) (m : Progress c) : m.stale r ≤ 1 := by
  cases m with
  | incCas k v => simp only [Progress.stale]; split <;> omega
  | _ => simp [Progress.stale]

theorem Progress.stale_begin (r : BitVec c.w) (w : CmdWord) : (Progress.begin c w).stale r = 0 := by
  cases h : Progress.begin c w with
  | incCas k v => exact absurd h (Progress.begin_ne_incCas w k v)
  | _ => rfl

/-- The port of an event is not stale afterwards, and was stale before if its swap fails. -/
theorem PortEvent.stale_self {p : Fin c.p} {m m' : Progress c} {ev : Event c} (h : PortEvent p m ev m')
    {r r' : BitVec c.w} (hreg : regAfter r ev = some r') : m'.stale r' + failureCount [ev] ≤ m.stale r := by
  cases h with
  | accept w => simp [Progress.stale_begin, failureCount]
  | iload k v =>
    obtain ⟨rfl, rfl⟩ : v = r ∧ r = r' := by simpa [regAfter] using hreg
    simp [Progress.stale, failureCount]
  | casFail k v =>
    obtain ⟨hne, rfl⟩ : v ≠ r ∧ r = r' := by simpa [regAfter] using hreg
    simp [Progress.stale, failureCount, hne]
  | casOk | rload | complete => simp [Progress.stale, failureCount]

/-- Another port becomes stale only by a successful swap. -/
theorem stale_other {r r' : BitVec c.w} {ev : Event c} (hreg : regAfter r ev = some r') (hreset : ev ≠ .reset)
    (m : Progress c) : m.stale r' ≤ m.stale r + successCount [ev] := by
  by_cases hswap : ∃ q old new, ev = .casOk q old new
  · obtain ⟨q, old, new, rfl⟩ := hswap
    exact (m.stale_le_one r').trans (Nat.le_add_left _ _)
  · rw [regAfter_eq hreg hreset fun q old new h => hswap ⟨q, old, new, h⟩]
    exact Nat.le_add_right _ _

theorem failureCount_add_stale_le_event {r r' : BitVec c.w} {m m' : Fin c.p → Progress c} {ev : Event c}
    (hreg : regAfter r ev = some r') (hprog : ∀ p, (m p).after p ev = some (m' p)) :
    ∑ p, (m' p).stale r' + failureCount [ev] ≤ ∑ p, (m p).stale r + (c.p - 1) * successCount [ev] := by
  cases hp : ev.port? with
  | none =>
    cases Event.eq_reset_of_port?_eq_none hp
    have hidle : ∀ p, m' p = .idle := fun p => (Option.some.inj (hprog p)).symm
    simp [hidle, Progress.stale, failureCount]
  | some p =>
    refine sum_add_le_of_others (b := 0) p ((portEvent_of_after hp (hprog p)).stale_self hreg) fun q hq => ?_
    rw [Progress.eq_of_after_of_port_ne hp hq (hprog q)]
    exact stale_other hreg (Event.ne_reset_of_port hp) (m q)

/-- R100: failures so far, with the ports whose swap must fail, are at most `P − 1` for each success. -/
theorem failureCount_add_stale_le {r r' : BitVec c.w} {m m' : Fin c.p → Progress c} {evs : List (Event c)}
    (h : ReadsTo r m evs r' m') :
    ∑ p, (m' p).stale r' + failureCount evs ≤ ∑ p, (m p).stale r + (c.p - 1) * successCount evs := by
  induction evs generalizing r m with
  | nil =>
    obtain ⟨rfl, rfl⟩ := h.nil
    simp [failureCount]
  | cons ev evs ih =>
    obtain ⟨r₁, m₁, hreg, hprog, hevs⟩ := h.cons
    have hev := failureCount_add_stale_le_event hreg hprog
    have hrest := ih hevs
    rw [← List.singleton_append, failureCount_append, successCount_append, Nat.mul_add]
    omega

/-- Settles O28: at reset no port is about to swap. -/
theorem failuresAreBoundedBySuccesses : Obligations.FailuresAreBoundedBySuccesses := by
  intro c e hexplained
  have h := failureCount_add_stale_le hexplained.readsTo
  have hzero : ∑ _p : Fin c.p, Progress.stale (0 : BitVec c.w) .idle = 0 := by simp [Progress.stale]
  omega

/-! ### No increment is lost or counted twice -/

/-- The slot of an increment that is accepted and has not taken effect. -/
def Progress.inFlight : Progress c → Multiset Nat
  | .incLoad k | .incCas k _ => {k.toNat}
  | .idle | .ratioLoad _ _ | .done _ => 0

theorem Progress.inFlight_begin (p : Fin c.p) (w : CmdWord) :
    (Progress.begin c w).inFlight = (acceptedIncs [Event.accept p w] : Multiset Nat) := by
  simp only [Progress.begin, acceptedIncs]
  cases decode c w with
  | error _ => rfl
  | ok i => cases i <;> rfl

/-- An event counts in the register the slots it takes out of flight. -/
theorem PortEvent.counts {p : Fin c.p} {m m' : Progress c} {ev : Event c} (h : PortEvent p m ev m') {r r' : BitVec c.w}
    (hreg : regAfter r ev = some r') : ∃ ks : List Nat, r' = nextAll c r ks ∧
      (ks : Multiset Nat) + m'.inFlight = (acceptedIncs [ev] : Multiset Nat) + m.inFlight := by
  cases h with
  | casOk k v =>
    obtain ⟨⟨rfl, -⟩, rfl⟩ : (v = r ∧ _) ∧ nextValue c v k.toNat = r' := by simpa [regAfter] using hreg
    exact ⟨[k.toNat], rfl, rfl⟩
  | accept w =>
    refine ⟨[], regAfter_eq hreg (by simp) (by simp), ?_⟩
    rw [Progress.inFlight_begin p w]
    simp [Progress.inFlight]
  | iload | casFail | rload | complete =>
    exact ⟨[], regAfter_eq hreg (by simp) (by simp), rfl⟩

/-- A sum over the ports of which one term changes. -/
theorem add_sum_eq_of_others {n : Nat} {f g : Fin n → Multiset Nat} {a b : Multiset Nat} (p : Fin n)
    (hp : a + g p = b + f p) (hothers : ∀ q, q ≠ p → g q = f q) : a + ∑ q, g q = b + ∑ q, f q := by
  rw [← Finset.add_sum_erase _ g (Finset.mem_univ p), ← Finset.add_sum_erase _ f (Finset.mem_univ p),
    Finset.sum_congr rfl fun q hq => hothers q (Finset.ne_of_mem_erase hq), ← add_assoc, hp, add_assoc]

/-- An event counts in the register slots that were in flight or that it puts in flight. -/
theorem counts_event {r r' : BitVec c.w} {m m' : Fin c.p → Progress c} {ev : Event c} (hreg : regAfter r ev = some r')
    (hprog : ∀ p, (m p).after p ev = some (m' p)) (hreset : ev ≠ .reset) : ∃ ks : List Nat, r' = nextAll c r ks ∧
      (ks : Multiset Nat) + ∑ p, (m' p).inFlight = (acceptedIncs [ev] : Multiset Nat) + ∑ p, (m p).inFlight := by
  obtain ⟨p, hp⟩ := Option.ne_none_iff_exists'.mp fun hp => hreset (Event.eq_reset_of_port?_eq_none hp)
  obtain ⟨ks, hks, hcount⟩ := (portEvent_of_after hp (hprog p)).counts hreg
  refine ⟨ks, hks, add_sum_eq_of_others p hcount fun q hq => ?_⟩
  rw [Progress.eq_of_after_of_port_ne hp hq (hprog q)]

/-- The slots counted in the register, with those in flight, are those accepted and those in flight before. -/
theorem ReadsTo.counts {r r' : BitVec c.w} {m m' : Fin c.p → Progress c} {evs : List (Event c)}
    (h : ReadsTo r m evs r' m') (hreset : .reset ∉ evs) : ∃ ks : List Nat, r' = nextAll c r ks ∧
      (ks : Multiset Nat) + ∑ p, (m' p).inFlight = (acceptedIncs evs : Multiset Nat) + ∑ p, (m p).inFlight := by
  induction evs generalizing r m with
  | nil =>
    obtain ⟨rfl, rfl⟩ := h.nil
    exact ⟨[], rfl, rfl⟩
  | cons ev evs ih =>
    simp only [List.mem_cons, not_or] at hreset
    obtain ⟨r₁, m₁, hreg, hprog, hevs⟩ := h.cons
    obtain ⟨ks, hks, hfirst⟩ := counts_event hreg hprog (Ne.symm hreset.1)
    obtain ⟨ls, hls, hrest⟩ := ih hevs hreset.2
    refine ⟨ks ++ ls, by rw [nextAll_append, ← hks, hls], ?_⟩
    rw [← List.singleton_append, acceptedIncs_append, ← Multiset.coe_add, ← Multiset.coe_add]
    calc (ks + ls + ∑ p, (m' p).inFlight : Multiset Nat)
      _ = ks + (acceptedIncs evs + ∑ p, (m₁ p).inFlight) := by rw [add_assoc, hrest]
      _ = acceptedIncs evs + (acceptedIncs [ev] + ∑ p, (m p).inFlight) := by rw [add_left_comm, hfirst]
      _ = acceptedIncs [ev] + acceptedIncs evs + ∑ p, (m p).inFlight := by rw [add_left_comm, add_assoc]

theorem sum_inFlight_of_idle {m : Fin c.p → Progress c} (h : ∀ p, m p = .idle) : ∑ p, (m p).inFlight = 0 :=
  Finset.sum_eq_zero fun p _ => by rw [h p, Progress.inFlight]

/-- Settles O56: with every port idle nothing is in flight. -/
theorem finishedRunCountsEveryIncrement : Obligations.FinishedRunCountsEveryIncrement := by
  intro c e hexplained hidle
  obtain ⟨evs, hhist, hreset, hreads⟩ := hexplained.exists_tail
  obtain ⟨ks, hreg, hcount⟩ := hreads.counts hreset
  rw [sum_inFlight_of_idle fun p => Port.progress_of_idle (hidle p), sum_inFlight_of_idle fun _ => rfl, add_zero,
    add_zero] at hcount
  rw [hhist]
  exact ⟨ks, Multiset.coe_eq_coe.mp hcount, hreg⟩

end Sys2Proof.Machine
end

section
/-! SUPPORT. The exact ratio of two slots (R109 to R111, R117) and its delivered result (R114); the counts it is the quotient
of before any decay (R120). -/

namespace Sys2Proof.Machine

variable {c : Config}

/-! ### The exact quotient -/

theorem ratioQ_of_value_ne_zero {v : BitVec c.w} {a b : Nat} (hb : value c v b ≠ 0) :
    ratioQ c v a b = (value c v a : Rat) / (value c v b : Rat) := by
  rw [ratioQ, if_neg hb, Rat.mkRat_eq_div, Int.cast_natCast]

theorem ratioQ_self {v : BitVec c.w} {a : Nat} (ha : value c v a ≠ 0) : ratioQ c v a a = 1 := by
  rw [ratioQ_of_value_ne_zero ha, div_self (Nat.cast_ne_zero.mpr ha)]

/-- Settles O32: the division is by zero only where `RATIOQ` answers zero. -/
theorem ratioIsTheExactQuotient : Obligations.RatioIsTheExactQuotient := fun c v a _ _ _ =>
  ⟨value_eq c v a, value_le_vmax c v a, fun hb => ratioQ_of_value_eq_zero (.inr hb), ratioQ_of_value_ne_zero⟩

/-- Settles O34: a slot that is not zero is divided by itself. -/
theorem equalOperandsGiveOneOrZero : Obligations.EqualOperandsGiveOneOrZero := fun _ _ _ ha =>
  ⟨decode_encode (Instr.wf_ratio_iff.mpr ⟨ha, ha⟩), ratioQ_self, fun hzero => ratioQ_of_value_eq_zero (.inl hzero)⟩

/-! ### The delivered result -/

theorem ratioData_of_value_eq_zero {v : BitVec c.w} {a b : Nat} (h : value c v a = 0 ∨ value c v b = 0) :
    ratioData c v a b = plusZero c.fmt :=
  congrArg (roundFmt c.fmt) (ratioQ_of_value_eq_zero h)

/-- Settles O35: the ratio of two slots that are not zero lies between `1/VMAX` and `VMAX`, where a legal format rounds to
positive finite numbers and keeps the order. -/
theorem ratioResultIsZeroOrFinitePositive : Obligations.RatioResultIsZeroOrFinitePositive := by
  intro c v a b
  obtain ⟨-, hpos, hmono, -⟩ := meetsR112_of_covers c.s_ge c.fmt_ok
  refine ⟨⟨fun hplus => ?_, ratioData_of_value_eq_zero⟩, fun ha hb => ?_⟩
  · by_contra hzero
    obtain ⟨ha, hb⟩ := not_or.mp hzero
    obtain ⟨hge, hle⟩ := slotRatios_range (ratioQ_mem_slotRatios ha hb)
    exact (hpos _ hge hle).2.2 hplus
  · obtain ⟨hge, hle⟩ := slotRatios_range (ratioQ_mem_slotRatios ha hb)
    have hlo := mkRat_one_pos (vmax_pos c)
    exact ⟨(hpos _ hge hle).1, hmono _ _ hlo hge, hmono _ _ (hlo.trans_le hge) hle⟩

/-! ### Counts -/

/-- Incrementing another slot, decay or not, leaves a zero slot zero. -/
theorem value_nextValue_eq_zero {v : BitVec c.w} (hv : WF c v = true) {j k : Nat} (hk : k < c.n) (hj : j < c.n)
    (hne : j ≠ k) (hzero : value c v j = 0) : value c (nextValue c v k) j = 0 := by
  obtain hlt | hmax := (value_le_vmax c v k).lt_or_eq
  · rw [value_nextValue_of_lt hv hk hlt, if_neg hne, hzero]
  · rw [value_nextValue_of_eq_vmax_of_ne hv hk hmax hj hne, hzero]

theorem value_nextAll_eq_zero {v : BitVec c.w} (hv : WF c v = true) {ks : List Nat} (hks : ∀ k ∈ ks, k < c.n) {y : Nat}
    (hy : y < c.n) (hnot : y ∉ ks) (hzero : value c v y = 0) : value c (nextAll c v ks) y = 0 := by
  induction ks generalizing v with
  | nil => exact hzero
  | cons k ks ih =>
    obtain ⟨hk, hks⟩ := List.forall_mem_cons.mp hks
    obtain ⟨hne, hnot⟩ := not_or.mp (mt List.mem_cons.mpr hnot)
    exact ih (WF_nextValue hv hk) hks hnot (value_nextValue_eq_zero hv hk hy hne hzero)

/-- Settles O19: below `VMAX` every increment adds one to its slot; a slot never counted is at most halved. -/
theorem valuesAreCountsBeforeDecay : Obligations.ValuesAreCountsBeforeDecay := by
  refine fun c ks hks => ⟨fun hmax x _ => ⟨value_nextAll_zero hks hmax x, fun y _ hy => ?_⟩, fun y hy hnot => ?_⟩
  · have hcount := value_nextAll_zero hks hmax
    have hne : value c (nextAll c 0 ks) y ≠ 0 := by
      rw [hcount]
      exact Nat.one_le_iff_ne_zero.mp hy
    rw [ratioQ_of_value_ne_zero hne, hcount, hcount]
  · have hzero := value_nextAll_eq_zero (WF_zero c) hks hy hnot (value_zero c y)
    exact ⟨hzero, fun x => ratioQ_of_value_eq_zero (.inr hzero)⟩

end Sys2Proof.Machine
end

section
/-! SUPPORT. The fields of a rounded binary pattern (R113): the significand is nearest with ties to even, and a normal
pattern holds its scale and its significand in the exponent and fraction fields, a carry moved into the exponent. -/

namespace Sys2Proof.Machine

/-! ### Nearest, ties to even -/

/-- The rounded integer is within half a divisor of the dividend, and even when half a divisor away. -/
theorem roundFrac_nearestEven (x : Nat) {y : Nat} (hy : 0 < y) :
    2 * |(x : Int) - y * roundFrac .nearestEven x y| ≤ y ∧
      (2 * |(x : Int) - y * roundFrac .nearestEven x y| = y → roundFrac .nearestEven x y % 2 = 0) := by
  have hmod : ((x % y : Nat) : Int) < y := Nat.cast_lt.mpr (Nat.mod_lt x hy)
  have hx : (x : Int) = y * (x / y : Nat) + (x % y : Nat) := by exact_mod_cast (Nat.div_add_mod x y).symm
  simp only [roundFrac]
  split
  · have hup : |(x : Int) - y * (x / y + 1 : Nat)| = y - (x % y : Nat) := by
      rw [abs_sub_comm, abs_of_nonneg] <;> rw [Nat.cast_add_one (x / y)] <;> linarith
    rw [hup]
    omega
  · have hdown : |(x : Int) - y * (x / y : Nat)| = (x % y : Nat) := by
      rw [abs_of_nonneg] <;> linarith
    rw [hdown]
    omega

/-- R113: the integer is within a half, and even when the half is reached. -/
theorem abs_sub_roundRat_nearestEven {t : Rat} (ht : 0 ≤ t) :
    |t - roundRat .nearestEven t| ≤ 1 / 2 ∧
      (|t - roundRat .nearestEven t| = 1 / 2 → roundRat .nearestEven t % 2 = 0) := by
  have hden : (0 : Rat) < t.den := Nat.cast_pos.mpr t.den_pos
  have hnum : ((t.num.toNat : Int) : Rat) = t * t.den := by
    rw [Int.toNat_of_nonneg (Rat.num_nonneg.mpr ht), Rat.mul_den_eq_num]
  have hscale : 2 * |t - roundRat .nearestEven t| * t.den =
      (2 * |(t.num.toNat : Int) - t.den * roundRat .nearestEven t| : Int) := by
    push_cast
    rw [← Int.cast_natCast t.num.toNat, hnum, mul_comm t, ← mul_sub, abs_mul, abs_of_pos hden]
    ring
  obtain ⟨hhalf, htie⟩ := roundFrac_nearestEven t.num.toNat t.den_pos
  refine ⟨?_, fun heq => htie ?_⟩
  · have hle : 2 * |t - roundRat .nearestEven t| * t.den ≤ t.den := by
      rw [hscale]
      exact_mod_cast hhalf
    linarith [le_of_mul_le_mul_right (hle.trans_eq (one_mul _).symm) hden]
  · rw [heq, mul_one_div_cancel two_ne_zero, one_mul] at hscale
    exact_mod_cast hscale.symm

/-! ### Normal numbers -/

section Normal

variable {b : BinaryFmt} {q : Rat} (h : (2 : Rat) ^ b.minExp ≤ q)

include h

theorem log_eq_of_normal : Int.log 2 q = b.minExp + scaleStep b q := by
  have hq : 0 < q := lt_of_lt_of_le (by positivity) h
  have := (Int.zpow_le_iff_le_log one_lt_two hq).mp h
  unfold scaleStep
  omega

/-- The significand of a normal number has its leading one, also in the lowest binade. -/
theorem le_significand_of_normal : 2 ^ b.fracBits ≤ significand b q := by
  have hq : 0 < q := lt_of_lt_of_le (by positivity) h
  apply le_roundRat
  rw [le_div_iff₀ (quantum_pos b _), Nat.cast_pow, Nat.cast_ofNat, two_pow_mul_quantum, ← log_eq_of_normal h]
  exact Int.zpow_log_le_self one_lt_two hq

/-- R113: the significand of a normal number is `q × 2^(fracBits − e)` rounded to nearest, ties to even. -/
theorem significand_nearestEven_of_normal (hr : b.rounding = .nearestEven) :
    |q * 2 ^ ((b.fracBits : Int) - Int.log 2 q) - significand b q| ≤ 1 / 2 ∧
      (|q * 2 ^ ((b.fracBits : Int) - Int.log 2 q) - significand b q| = 1 / 2 → significand b q % 2 = 0) := by
  have hq : 0 < q := lt_of_lt_of_le (by positivity) h
  have hscaled : q / quantum b (scaleStep b q) = q * 2 ^ ((b.fracBits : Int) - Int.log 2 q) := by
    rw [quantum, ← log_eq_of_normal h, div_eq_mul_inv, ← zpow_neg, neg_sub]
  rw [significand, hscaled, hr]
  exact abs_sub_roundRat_nearestEven (by positivity)

end Normal

/-! ### The fields of a pattern -/

theorem expField_eq (b : BinaryFmt) (d : BitVec b.width) :
    expField b d = d.toNat / 2 ^ b.fracBits % 2 ^ b.expBits := by
  rw [expField, BitVec.extractLsb'_toNat, Nat.shiftRight_eq_div_pow]

theorem fracField_eq (b : BinaryFmt) (d : BitVec b.width) : fracField b d = d.toNat % 2 ^ b.fracBits := by
  rw [fracField, BitVec.extractLsb'_toNat, Nat.shiftRight_zero]

section Fields

variable {b : BinaryFmt} {d : BitVec b.width} (hfin : d.toNat < b.infinity)

include hfin

theorem signBit_of_lt_infinity : signBit b d = false := by
  rw [signBit, ← BitVec.testBit_toNat]
  refine Nat.testBit_lt_two_pow (hfin.trans_le ?_)
  rw [pow_add]
  exact Nat.mul_le_mul_right _ (Nat.sub_le _ _)

/-- Below infinity the exponent field is not cut off. -/
theorem expField_of_lt_infinity : expField b d = d.toNat / 2 ^ b.fracBits := by
  rw [expField_eq, Nat.mod_eq_of_lt]
  exact ((Nat.div_lt_iff_lt_mul (Nat.two_pow_pos _)).mpr hfin).trans_le (Nat.sub_le _ _)

variable {k m : Nat} (hd : d.toNat = k * 2 ^ b.fracBits + m)

include hd

/-- The leading one of the significand counts in the exponent field. -/
theorem fields_of_significand (hlo : 2 ^ b.fracBits ≤ m) (hhi : m < 2 ^ (b.fracBits + 1)) :
    expField b d = k + 1 ∧ fracField b d = m - 2 ^ b.fracBits := by
  have hm : d.toNat = (m - 2 ^ b.fracBits) + (k + 1) * 2 ^ b.fracBits := by rw [hd, Nat.add_mul]; omega
  have hlt : m - 2 ^ b.fracBits < 2 ^ b.fracBits := by rw [pow_succ] at hhi; omega
  rw [expField_of_lt_infinity hfin, fracField_eq, hm, Nat.add_mul_div_right _ _ (Nat.two_pow_pos _),
    Nat.add_mul_mod_self_right, Nat.div_eq_of_lt hlt, Nat.mod_eq_of_lt hlt, Nat.zero_add]
  exact ⟨rfl, rfl⟩

/-- A carry moves into the exponent field. -/
theorem fields_of_carry (hm : m = 2 ^ (b.fracBits + 1)) : expField b d = k + 2 ∧ fracField b d = 0 := by
  have hd' : d.toNat = (k + 2) * 2 ^ b.fracBits := by rw [hd, hm]; ring
  rw [expField_of_lt_infinity hfin, fracField_eq, hd', Nat.mul_div_left _ (Nat.two_pow_pos _), Nat.mul_mod_left]
  exact ⟨rfl, rfl⟩

end Fields

/-! ### binary64 -/

theorem minExp_binary64 : BinaryFmt.binary64.minExp = -1022 := by decide

/-- A binade below the top one, its carry included, stays below infinity. -/
theorem rawBits_binary64_lt_infinity {q : Rat} (hq : 0 < q) (hle : q ≤ 2 ^ 1022) :
    rawBits .binary64 q < BinaryFmt.binary64.infinity := by
  have hlog : Int.log 2 q < 1023 := (Int.lt_zpow_iff_log_lt one_lt_two hq).mp <| calc
    q ≤ 2 ^ ((1022 : Nat) : Int) := hle.trans_eq (zpow_natCast 2 1022).symm
    _ < 2 ^ (1023 : Int) := zpow_lt_zpow_right₀ one_lt_two (by decide)
  have hscale : scaleStep .binary64 q ≤ 2044 := by
    rw [scaleStep, minExp_binary64]
    omega
  have hm := significand_le .binary64 hq
  simp only [rawBits, BinaryFmt.infinity, BinaryFmt.binary64] at hm hscale ⊢
  omega

/-- Settles O36: a normal number's significand is `q × 2^(52 − e)` rounded, and its pattern below infinity has the fields
of scale and significand. -/
theorem roundsToNearestEvenBinary64 : Obligations.RoundsToNearestEvenBinary64 := by
  intro q hge hle
  have hnormal : (2 : Rat) ^ BinaryFmt.binary64.minExp ≤ q := by
    rw [minExp_binary64, zpow_neg, ← one_div]
    exact_mod_cast hge
  have hq : 0 < q := lt_of_lt_of_le (by positivity) hnormal
  have hraw := rawBits_binary64_lt_infinity hq hle
  have hbits : (roundFmt .binary64 q).toNat = rawBits .binary64 q :=
    (roundFmt_binary_toNat .binary64 hq).trans (clampBinary_of_lt hraw)
  have hfin := hbits.trans_lt hraw
  have hlog := log_eq_of_normal hnormal
  obtain ⟨hnear, heven⟩ := significand_nearestEven_of_normal hnormal rfl
  refine ⟨Int.log 2 q, significand .binary64 q, Int.zpow_log_le_self one_lt_two hq,
    Int.lt_zpow_succ_log_self one_lt_two q, hnear, heven, signBit_of_lt_infinity hfin, fun hm => ?_, fun hm => ?_,
    significand_le .binary64 hq⟩
  · obtain ⟨hexp, hfrac⟩ := fields_of_significand hfin hbits (le_significand_of_normal hnormal) hm
    exact ⟨by rw [hexp, hlog, minExp_binary64]; omega, hfrac⟩
  · obtain ⟨hexp, hfrac⟩ := fields_of_carry hfin hbits hm
    exact ⟨by rw [hexp, hlog, minExp_binary64]; omega, hfrac⟩

end Sys2Proof.Machine
end

section
/-! SUPPORT. The command `RATIO` step by step (42_ratio_query.md): what each turn of its port does, the whole command (R118,
R152), and its frame (R115). -/

namespace Sys2Proof.Machine

variable {c : Config}

/-! ### Each step of the command -/

theorem presentWord_of_ratio {e : Engine c} {v : Env c} {p : Fin c.p} {w : CmdWord} {a b : SlotIx}
    (hidle : (e.port p).ph = .idle) (hw : v.offered p = some w) (hd : decode c w = .ok (.ratio a b)) :
    presentWord e v p = .next ⟨c, ratioAccept e p a b, { v.taken p with act := p }⟩ := by
  have hab := Instr.wf_ratio_iff.mp (encode_of_decode hd).2
  rw [presentWord_of_ok hidle hw hd, exec_ratio, ratioStep_of_idle hidle hab]

/-- Settles O30: the word is the encoding of the command it decodes to, so `Accept` records it. -/
theorem ratioIsAccepted : Obligations.RatioIsAccepted := by
  intro c e v v' p w a b hturn hidle hw hd
  rw [step_requester hturn, presentWord_of_ratio hidle hw hd, ratioAccept_eq, (encode_of_decode hd).1]

/-- Settles O31: the step of `RATIO_LOAD`. -/
theorem ratioAnswersFromOneLoad : Obligations.RatioAnswersFromOneLoad := by
  rintro c e v a b hph rfl rfl
  rw [exec_ratio, ratioStep_of_ratioLoad hph, ratioLoad_eq, ratioData]

/-! ### The whole command -/

/-- The engine after a `RATIO a, b` whose three turns port `p` takes without interruption (R118). -/
def afterRatio (e : Engine c) (p : Fin c.p) (a b : SlotIx) : Engine c :=
  complete (ratioLoad (ratioAccept e p a b) p) p

theorem afterRatio_eq (e : Engine c) (p : Fin c.p) (a b : SlotIx) :
    afterRatio e p a b = ⟨e.reg,
      e.ports.set p.val { e.port p with
        ph := .idle, opa := a, opb := b, rsp := ⟨.ok, ratioData c e.reg a.toNat b.toNat⟩ } p.isLt,
      e.hist ++ [.accept p (encode (.ratio a b)), .rload p e.reg,
        .complete p .ok (ratioData c e.reg a.toNat b.toNat)]⟩ := by
  rw [afterRatio, ratioAccept_eq, ratioLoad_eq, complete_eq]
  simp [Engine.port_mk_set]

theorem run_ratio {e : Engine c} {v : Env c} {p : Fin c.p} {a b : SlotIx} {rest : List (Turn c)}
    (hab : a.toNat < c.n ∧ b.toNat < c.n) (hidle : (e.port p).ph = .idle)
    (hw : v.offered p = some (encode (.ratio a b)))
    (hsched : v.sched = .requester p :: .port p :: .port p :: rest) :
    run 3 ⟨c, e, v⟩ = .next ⟨c, afterRatio e p a b, { v.taken p with act := p, sched := rest }⟩ := by
  have hd := decode_encode (Instr.wf_ratio_iff.mpr hab)
  have haccept := (step_laid_down_requester (e := e) hsched).trans
    (presentWord_of_ratio hidle ((v.offered_with_sched _ p).trans hw) hd)
  rw [run_succ_of_next haccept, Env.taken_with_sched]
  rw [run_succ_of_next ((step_laid_down_port rfl).trans (portTurn_of_ratioLoad _ (by simp [ratioAccept])))]
  rw [run_succ_of_next ((step_laid_down_port rfl).trans (portTurn_of_done _ (by simp [ratioLoad])))]
  rfl

/-- Settles O38: the three turns are ACCEPT, RLOAD and COMPLETE. -/
theorem ratioTakesThreeSteps : Obligations.RatioTakesThreeSteps := by
  intro c e v p a b rest ha hb hidle hw hsched
  refine ⟨afterRatio e p a b, run_ratio ⟨ha, hb⟩ hidle hw hsched, ?_⟩
  rw [afterRatio_eq]
  refine ⟨rfl, ?_, rfl, fun q hq => e.port_update_of_ne _ hq _ _⟩
  rw [Engine.port_update_self]

/-- Settles O39: after reset every slot is zero. -/
theorem ratioAfterResetIsZero : Obligations.RatioAfterResetIsZero := by
  intro c v p a b rest ha hb hw hsched
  have hrun := run_ratio (e := Engine.atReset c) ⟨ha, hb⟩ (by simp) hw hsched
  have hdata : ratioData c 0 a.toNat b.toNat = plusZero c.fmt := ratioData_of_value_eq_zero (.inl (value_zero c _))
  rw [afterRatio_eq, Engine.atReset_reg, hdata] at hrun
  exact ⟨_, _, hrun, rfl, rfl⟩

/-! ### The frame -/

/-- What a step of `RATIO a, b` at port `p` may change of the engine `e` (R107, R108, R115). -/
def RatioFramed (e : Engine c) (p : Fin c.p) (a b : SlotIx) (e' : Engine c) : Prop :=
  e'.reg = e.reg ∧ (∀ q, q ≠ p → e'.port q = e.port q) ∧ (e'.port p).cur = (e.port p).cur ∧
  ((e.port p).ph ≠ .idle → (e'.port p).opa = (e.port p).opa ∧ (e'.port p).opb = (e.port p).opb) ∧
  (((e.port p).ph = .ratioLoad ∧ (e.port p).opa = a ∧ (e.port p).opb = b) ∨
    ((e.port p).ph = .idle ∧ (c.n ≤ a.toNat ∨ c.n ≤ b.toNat)) ∨ (e'.port p).rsp = (e.port p).rsp) ∧
  e.hist <+: e'.hist

theorem RatioFramed.refl (e : Engine c) (p : Fin c.p) (a b : SlotIx) : RatioFramed e p a b e :=
  ⟨rfl, fun _ _ => rfl, rfl, fun _ => ⟨rfl, rfl⟩, .inr (.inr rfl), List.prefix_rfl⟩

/-- A new port `p` and recorded events are framed by what is asked of the port's latches. -/
theorem RatioFramed.update {e : Engine c} {p : Fin c.p} {a b : SlotIx} {x : Port c} (evs : List (Event c))
    (hcur : x.cur = (e.port p).cur) (hop : (e.port p).ph ≠ .idle → x.opa = (e.port p).opa ∧ x.opb = (e.port p).opb)
    (hrsp : ((e.port p).ph = .ratioLoad ∧ (e.port p).opa = a ∧ (e.port p).opb = b) ∨
      ((e.port p).ph = .idle ∧ (c.n ≤ a.toNat ∨ c.n ≤ b.toNat)) ∨ x.rsp = (e.port p).rsp) :
    RatioFramed e p a b ⟨e.reg, e.ports.set p.val x p.isLt, e.hist ++ evs⟩ := by
  rw [RatioFramed, Engine.port_update_self]
  exact ⟨rfl, fun q hq => e.port_update_of_ne _ hq _ _, hcur, hop, hrsp, List.prefix_append _ _⟩

theorem ratioStep_framed (e : Engine c) (p : Fin c.p) (a b : SlotIx) : RatioFramed e p a b (ratioStep e p a b) := by
  obtain ⟨hph, -, -, h⟩ | ⟨hph, hab, h⟩ | ⟨hph, ha, hb, h⟩ | ⟨-, h⟩ | ⟨-, -, -, h⟩ := ratioStep_cases e p a b <;> rw [h]
  · exact .update _ rfl (absurd hph) (.inr (.inr rfl))
  · exact .update _ rfl (fun _ => ⟨rfl, rfl⟩) (.inr (.inl ⟨hph, hab⟩))
  · exact .update _ rfl (fun _ => ⟨rfl, rfl⟩) (.inl ⟨hph, ha, hb⟩)
  · exact .update _ rfl (fun _ => ⟨rfl, rfl⟩) (.inr (.inr rfl))
  · exact .refl e p a b

/-- Settles O40: by what the command can do at its port. -/
theorem ratioFrame : Obligations.RatioFrame := by
  intro c e e' v v' a b h
  cases (exec_ratio a b e v).symm.trans h
  exact ⟨rfl, ratioStep_framed e v.act a b⟩

end Sys2Proof.Machine
end

section
/-! SUPPORT. What a step of the machine is of the spec (R135, R6): one of its relation's steps or nothing, in the same
configuration. -/

namespace Sys2Proof.Machine

/-- Settles O53: whatever turn is drawn, its outcome is what one row of R135's table gives, or the engine as it was. -/
theorem stepIsASpecStep : Obligations.StepIsASpecStep := by
  intro c e e' v v' hstep
  obtain ⟨e₁, v₁, hnext, hspec⟩ := step_leadsToSpecStep e v
  cases hnext.symm.trans hstep
  exact hspec

/-- Settles O47: every turn has a next state, and it is one of the same configuration. -/
theorem noStepFaultsOrReconfigures : Obligations.NoStepFaultsOrReconfigures :=
  fun s => exists_step s.hw s.env

end Sys2Proof.Machine
end

section
/-! SUPPORT. The draw of a turn when nothing is laid down (R135): an enabled step, or none when none is enabled. -/

namespace Sys2Proof.Machine

variable {c : Config} {e : Engine c} {v : Env c}

/-- Drawing with nothing laid down finds an enabled step if there is one, and lays nothing down. -/
theorem drawTurn_of_nothing_laid_down (hsched : v.sched = []) (hround : v.round = []) :
    (drawTurn e v).2.sched = [] ∧
      ((enabledTurns e v = [] ∧ (drawTurn e v).1 = none) ∨ ∃ t ∈ enabledTurns e v, (drawTurn e v).1 = some t) := by
  obtain ⟨t, ts, hlaid, -⟩ | ⟨-, -, hnone, hdraw⟩ | ⟨-, -, t, hmem, hdraw⟩ := drawTurn_cases e v
  · simp [hsched, hround] at hlaid
  · rw [hdraw]
    exact ⟨hsched, .inl ⟨hnone, rfl⟩⟩
  · obtain hdraw | hdraw := hdraw <;> rw [hdraw] <;> exact ⟨hsched, .inr ⟨t, hmem, rfl⟩⟩

theorem mem_enabledTurns_of_drawn (hsched : v.sched = []) (hround : v.round = []) {t : Turn c}
    (h : (drawTurn e v).1 = some t) : t ∈ enabledTurns e v := by
  obtain ⟨-, ⟨-, hnone⟩ | ⟨u, hmem, hu⟩⟩ := drawTurn_of_nothing_laid_down (e := e) hsched hround
  · cases hnone.symm.trans h
  · cases hu.symm.trans h
    exact hmem

theorem drawTurn_eq_none_iff (hsched : v.sched = []) (hround : v.round = []) :
    (drawTurn e v).1 = none ↔ enabledTurns e v = [] := by
  obtain ⟨-, ⟨hnil, hnone⟩ | ⟨t, hmem, hsome⟩⟩ := drawTurn_of_nothing_laid_down (e := e) hsched hround
  · simp [hnil, hnone]
  · simp [hsome, List.ne_nil_of_mem hmem]

/-- The enabled steps are those of the busy ports and of the requesters that have a word for an idle one. -/
theorem mem_enabledTurns_iff {t : Turn c} :
    t ∈ enabledTurns e v ↔ (∃ p, t = .port p ∧ (e.port p).ph ≠ .idle) ∨
      ∃ p, t = .requester p ∧ (e.port p).ph = .idle ∧ v.offered p ≠ none := by
  simp only [mem_enabledTurns, enabledTurn_eq_some, exists_or]
  exact or_congr (exists_congr fun _ => and_comm) (exists_congr fun _ => by rw [← and_assoc, and_comm])

theorem drawTurn_of_laid_down_or_round {t : Turn c} {ts : List (Turn c)}
    (h : v.sched = t :: ts ∨ (v.sched = [] ∧ v.round = t :: ts)) :
    drawTurn e v = (some t, { v with sched := ts }) :=
  h.elim (drawTurn_of_laid_down e v) fun ⟨hsched, hround⟩ => drawTurn_of_round e v hsched hround

/-- Settles O44: a laid-down turn is taken from the front; with none laid down the draw is among the enabled steps, which
are none exactly at the end of a run. -/
theorem drawnTurnIsLaidDownOrEnabled : Obligations.DrawnTurnIsLaidDownOrEnabled := by
  refine fun c e v => ⟨drawTurn_act e v, drawTurn_inbox e v, drawTurn_supply e v, drawTurn_round e v,
    fun t ts hlaid => ?_, fun hsched hround => ⟨?_, fun t hdrawn => ?_, ?_⟩⟩
  · rw [drawTurn_of_laid_down_or_round hlaid]
    exact ⟨rfl, rfl⟩
  · exact (drawTurn_of_nothing_laid_down hsched hround).1
  · exact mem_enabledTurns_iff.mp (mem_enabledTurns_of_drawn hsched hround hdrawn)
  · exact (drawTurn_eq_none_iff hsched hround).trans enabledTurns_eq_nil_iff

end Sys2Proof.Machine
end

section
/-! SUPPORT. A turn of one port or its requester leaves the other ports and the words of the other requesters alone (R132,
R136). -/

namespace Sys2Proof.Machine

variable {c : Config}

/-- Every port but `p`, and the words waiting for it, are as before. -/
def OthersKept (p : Fin c.p) (e : Engine c) (v : Env c) (e' : Engine c) (v' : Env c) : Prop :=
  ∀ q, q ≠ p → e'.port q = e.port q ∧ v'.inbox[q] = v.inbox[q]

/-- A command moves its own port alone and nothing of the surroundings. -/
theorem exec_othersKept {i : Instr} {e e' : Engine c} {v v' : Env c} (h : exec i ⟨c, e, v⟩ = .next ⟨c, e', v'⟩) :
    OthersKept v.act e v e' v' := by
  cases i with
  | inc k =>
    cases (exec_inc k e v).symm.trans h
    obtain ⟨hothers, -⟩ := incStep_framed e v.act k
    exact fun q hq => ⟨hothers q hq, rfl⟩
  | ratio a b =>
    cases (exec_ratio a b e v).symm.trans h
    obtain ⟨-, hothers, -⟩ := ratioStep_framed e v.act a b
    exact fun q hq => ⟨hothers q hq, rfl⟩

theorem presentWord_othersKept {e e' : Engine c} {v v' : Env c} {p : Fin c.p}
    (h : presentWord e v p = .next ⟨c, e', v'⟩) : OthersKept p e v e' v' := by
  obtain ⟨w, i, -, -, -, hrun⟩ | ⟨w, -, -, -, -, hrun⟩ | ⟨-, hrun⟩ := presentWord_cases e v p <;> rw [hrun] at h
  · intro q hq
    obtain ⟨hport, hinbox⟩ := exec_othersKept h q hq
    exact ⟨hport, hinbox.trans (v.taken_inbox_of_ne hq)⟩
  · cases h
    exact fun q hq => ⟨e.setPort_port_of_ne _ hq, v.taken_inbox_of_ne hq⟩
  · cases h
    exact fun q _ => ⟨rfl, rfl⟩

theorem portTurn_othersKept {e e' : Engine c} {v v' : Env c} {p : Fin c.p}
    (h : portTurn e v p = .next ⟨c, e', v'⟩) : OthersKept p e v e' v' := by
  obtain ⟨-, hrun⟩ | ⟨-, hrun⟩ | ⟨-, hrun⟩ | ⟨-, hrun⟩ := portTurn_cases e v p <;> rw [hrun] at h
  · exact exec_othersKept h
  · exact exec_othersKept h
  · cases h
    exact fun q hq => ⟨e.setPort_port_of_ne _ hq, rfl⟩
  · cases h
    exact fun q _ => ⟨rfl, rfl⟩

theorem step_othersKept {e e' : Engine c} {v v' : Env c} {p : Fin c.p}
    (hturn : (drawTurn e v).1 = some (.port p) ∨ (drawTurn e v).1 = some (.requester p))
    (h : step ⟨c, e, v⟩ = .next ⟨c, e', v'⟩) : OthersKept p e (drawTurn e v).2 e' v' := by
  obtain hturn | hturn := hturn
  · exact portTurn_othersKept ((step_port (Prod.ext hturn rfl)).symm.trans h)
  · exact presentWord_othersKept ((step_requester (Prod.ext hturn rfl)).symm.trans h)

/-- Settles O49: the turn is the port's or its requester's, and drawing it moves no word. -/
theorem portsDoNotTouchEachOther : Obligations.PortsDoNotTouchEachOther := by
  intro c e e' v v' p q hturn hq hstep
  obtain ⟨-, hsupply, -⟩ := step_surroundings hstep
  obtain ⟨hport, hinbox⟩ := step_othersKept hturn hstep q hq
  rw [drawTurn_inbox] at hinbox
  exact ⟨hport, hinbox, congrArg (·[q]) hsupply⟩

end Sys2Proof.Machine
end

section
/-! SUPPORT. The exception (R127) and the zero denominator (R111, R125). -/

namespace Sys2Proof.Machine

variable {c : Config}

/-- Settles O33: the exact ratio is zero, and zero is rounded to `+0`. -/
theorem zeroDenominatorAnswersZero : Obligations.ZeroDenominatorAnswersZero := by
  rintro c e v a b hph rfl rfl hzero
  refine ⟨ratioLoad e v.act, ?_, ?_, ?_, ratioLoad_reg e v.act⟩
  · rw [exec_ratio, ratioStep_of_ratioLoad hph]
  · rw [ratioLoad_eq, Engine.port_update_self, ratioData_of_value_eq_zero (.inr hzero)]
  · rw [ratioLoad_eq, Engine.port_update_self]

/-- The engine after an illegal word that port `p` takes and answers without interruption (R127). -/
theorem complete_raiseIllegal_eq (e : Engine c) (p : Fin c.p) (w : CmdWord) :
    complete (raiseIllegal e p w) p =
      ⟨e.reg, e.ports.set p.val { e.port p with ph := .idle, rsp := ⟨.illegal, 0⟩ } p.isLt,
        e.hist ++ [.accept p w, .complete p .illegal 0]⟩ := by
  rw [complete_eq, raiseIllegal_port_self, raiseIllegal_eq]
  simp

/-- Settles O41: the two turns are the exception and COMPLETE. -/
theorem illegalWordRaisesIllegalCommand : Obligations.IllegalWordRaisesIllegalCommand := by
  intro c e v p w why rest hidle hw hd hsched
  have hraise := (step_laid_down_requester (e := e) hsched).trans
    (presentWord_of_error hidle ((v.offered_with_sched _ p).trans hw) hd)
  rw [Env.taken_with_sched] at hraise
  have hdone : ((raiseIllegal e p w).port p).ph = .done := by rw [raiseIllegal_port_self]
  refine ⟨hraise, complete (raiseIllegal e p w) p, _, (run_succ_of_next hraise).trans
    (run_succ_of_next ((step_laid_down_port rfl).trans (portTurn_of_done _ hdone))), ?_⟩
  rw [complete_raiseIllegal_eq, Engine.port_update_self]
  exact ⟨rfl, rfl, rfl, fun q hq => e.port_update_of_ne _ hq _ _⟩

end Sys2Proof.Machine
end

section
/-! SUPPORT. Every interleaving of the spec's steps is taken by the machine (R135): one turn and at most one word laid down
for each step, in front of those of the steps after it. -/

namespace Sys2Proof.Machine

variable {c : Config}

/-! ### Agreement is an equivalence -/

theorem Engine.Agrees.symm {e f : Engine c} (h : e.Agrees f) : f.Agrees e := by
  obtain ⟨hreg, hhist, hport⟩ := h
  exact ⟨hreg.symm, hhist.symm, fun p => (hport p).symm⟩

theorem Engine.Agrees.trans {e f g : Engine c} (h : e.Agrees f) (h' : f.Agrees g) : e.Agrees g := by
  obtain ⟨hreg, hhist, hport⟩ := h
  obtain ⟨hreg', hhist', hport'⟩ := h'
  exact ⟨hreg.trans hreg', hhist.trans hhist', fun p => (hport p).trans (hport' p)⟩

/-- Any two engines just reset agree, whatever their latches hold (R140). -/
theorem atReset_agrees {e : Engine c} (zero : e.reg = 0) (idle : ∀ p : Fin c.p, (e.port p).ph = .idle)
    (begun : e.hist = [.reset]) : (Engine.atReset c).Agrees e := by
  refine Engine.agrees_iff.mpr ⟨zero.symm, begun.symm, fun p => ?_⟩
  rw [Engine.atReset_port, Port.progress_of_idle Port.atReset_ph, Port.progress_of_idle (idle p)]

/-! ### Laying down one step -/

/-- The surroundings `v` with the turn `t` laid down before all others. -/
def Env.turnFirst (v : Env c) (t : Turn c) : Env c := { v with sched := t :: v.sched }

/-- The surroundings `v` with `w` the next word of port `p`'s requester. -/
def Env.wordFirst (v : Env c) (p : Fin c.p) (w : CmdWord) : Env c :=
  { v with inbox := v.inbox.set p.val (w :: v.inbox[p]) p.isLt }

theorem Env.inbox_wordFirst (v : Env c) (p : Fin c.p) (w : CmdWord) : (v.wordFirst p w).inbox[p] = w :: v.inbox[p] := by
  simp [Env.wordFirst]

theorem Env.offered_wordFirst (v : Env c) (p : Fin c.p) (w : CmdWord) : (v.wordFirst p w).offered p = some w :=
  Env.offered_of_inbox (v.inbox_wordFirst p w)

/-- Taking the word leaves the surroundings it was laid before. -/
theorem Env.taken_wordFirst (v : Env c) (p : Fin c.p) (w : CmdWord) : (v.wordFirst p w).taken p = v := by
  rw [Env.taken_of_inbox (v.inbox_wordFirst p w)]
  simp [Env.wordFirst]

theorem step_turnFirst (e : Engine c) (v : Env c) (t : Turn c) :
    step ⟨c, e, v.turnFirst t⟩ = runTurn e v (some t) := by
  rw [step_eq, drawTurn_of_laid_down e (v.turnFirst t) rfl]
  rfl

/-- From any engine that agrees with `e`, under `v`, the machine steps to one that agrees with `e'`, under `v'`. Whose turn
was last is left open in both. -/
def StepsTo (e : Engine c) (v : Env c) (e' : Engine c) (v' : Env c) : Prop :=
  ∀ (g : Engine c) (a : Fin c.p), g.Agrees e → ∃ (g' : Engine c) (a' : Fin c.p),
    step ⟨c, g, { v with act := a }⟩ = .next ⟨c, g', { v' with act := a' }⟩ ∧ g'.Agrees e'

/-- One engine stands for all that agree with it. -/
theorem StepsTo.of_step {e f e' : Engine c} {v v' : Env c} (hagrees : f.Agrees e')
    (h : ∀ a, ∃ a', step ⟨c, e, { v with act := a }⟩ = .next ⟨c, f, { v' with act := a' }⟩) : StepsTo e v e' v' := by
  intro g a hg
  obtain ⟨a', hstep⟩ := h a
  obtain ⟨g', f', v₁, hg', hf', hagrees'⟩ := step_agree hg { v with act := a }
  cases hstep.symm.trans hf'
  exact ⟨g', a', hg', hagrees'.trans hagrees⟩

theorem stepsTo_of_portTurn {e e' : Engine c} {p : Fin c.p}
    (h : ∀ v, portTurn e v p = .next ⟨c, e', { v with act := p }⟩) (v : Env c) :
    StepsTo e (v.turnFirst (.port p)) e' v :=
  .of_step (.refl e') fun a => ⟨p, (step_turnFirst e { v with act := a } _).trans (h _)⟩

theorem stepsTo_of_presentWord {e e' : Engine c} {p : Fin c.p} {w : CmdWord}
    (h : ∀ v, v.offered p = some w → presentWord e v p = .next ⟨c, e', { v.taken p with act := p }⟩) (v : Env c) :
    StepsTo e ((v.wordFirst p w).turnFirst (.requester p)) e' v := by
  refine .of_step (.refl e') fun a => ⟨p, ?_⟩
  have htaken := h _ (Env.offered_wordFirst { v with act := a } p w)
  rw [Env.taken_wordFirst] at htaken
  exact (step_turnFirst e (Env.wordFirst { v with act := a } p w) _).trans htaken

/-- Every step of the spec's relation can be laid down before any surroundings. -/
theorem exists_stepsTo_of_specStep {e e' : Engine c} (h : SpecStep e e') (v' : Env c) :
    ∃ v, StepsTo e v e' v' := by
  cases h with
  | acceptInc p w k idle word =>
    refine ⟨_, stepsTo_of_presentWord (p := p) (w := w) (fun v hw => ?_) v'⟩
    rw [presentWord_of_inc v idle hw word, incAccept_eq, (encode_of_decode word).1]
  | acceptRatio p w a b idle word =>
    refine ⟨_, stepsTo_of_presentWord (p := p) (w := w) (fun v hw => ?_) v'⟩
    rw [presentWord_of_ratio idle hw word, ratioAccept_eq, (encode_of_decode word).1]
  | acceptIllegal p w why idle word =>
    exact ⟨_, stepsTo_of_presentWord (fun v hw => presentWord_of_error idle hw word) v'⟩
  | iload p phase => exact ⟨_, stepsTo_of_portTurn (fun v => portTurn_of_incLoad v phase) v'⟩
  | casOk p phase current =>
    refine ⟨_, stepsTo_of_portTurn (p := p) (fun v => ?_) v'⟩
    rw [portTurn_of_incCas v phase, incCas_of_current e p current]
  | casFail p phase stale =>
    refine ⟨_, stepsTo_of_portTurn (p := p) (fun v => ?_) v'⟩
    rw [portTurn_of_incCas v phase, incCas_of_stale e p stale]
  | rload p phase => exact ⟨_, stepsTo_of_portTurn (fun v => portTurn_of_ratioLoad v phase) v'⟩
  | complete p phase => exact ⟨_, stepsTo_of_portTurn (fun v => portTurn_of_done v phase) v'⟩
  | reset _ zero idle begun =>
    exact ⟨v'.turnFirst .reset, .of_step (atReset_agrees zero idle begun) fun a =>
      ⟨a, step_turnFirst e { v' with act := a } _⟩⟩

/-! ### Sequences of steps -/

/-- The machine takes a step of the spec's relation from any engine that agrees with its first one. -/
theorem exists_step_of_specStep {e e' g : Engine c} (h : SpecStep e e') (hg : g.Agrees e) :
    ∃ g' : Engine c, g'.Agrees e' ∧ ∃ v v' : Env c, step ⟨c, g, v⟩ = .next ⟨c, g', v'⟩ := by
  obtain ⟨v, hv⟩ := exists_stepsTo_of_specStep h (Env.quiet c)
  obtain ⟨g', a', hstep, hagrees⟩ := hv g v.act hg
  exact ⟨g', hagrees, v, _, hstep⟩

/-- The steps of a finite sequence are laid down from the last one to the first. -/
theorem exists_run_of_specSteps (n : Nat) {σ : Nat → Engine c} (hσ : ∀ i, i < n → SpecStep (σ i) (σ (i + 1))) :
    ∃ v : Env c, ∀ (g : Engine c) (a : Fin c.p), g.Agrees (σ 0) → ∃ (f : Engine c) (v' : Env c),
      run n ⟨c, g, { v with act := a }⟩ = .next ⟨c, f, v'⟩ ∧ f.Agrees (σ n) := by
  induction n generalizing σ with
  | zero => exact ⟨Env.quiet c, fun g a hg => ⟨g, _, rfl, hg⟩⟩
  | succ n ih =>
    obtain ⟨v₁, hrest⟩ := ih (σ := fun i => σ (i + 1)) fun i hi => hσ (i + 1) (Nat.succ_lt_succ hi)
    obtain ⟨v, hfirst⟩ := exists_stepsTo_of_specStep (hσ 0 n.succ_pos) v₁
    refine ⟨v, fun g a hg => ?_⟩
    obtain ⟨g₁, a₁, hstep, hg₁⟩ := hfirst g a hg
    rw [run_succ_of_next hstep]
    exact hrest g₁ a₁ hg₁

/-- The values reached from `start` by taking `next` over and over, with the property each place asks for. -/
def follow {α : Type} {P : Nat → α → Prop} (start : { y // P 0 y }) (next : ∀ i, { y // P i y } → { y // P (i + 1) y }) :
    (i : Nat) → { y // P i y }
  | 0 => start
  | i + 1 => next i (follow start next i)

/-- If from every value the place admits there is a related one that the next place admits, there is an endless sequence
of them. -/
theorem exists_sequence_of_forall_step {α : Type} (P : Nat → α → Prop) (R : α → α → Prop) {x : α} (hx : P 0 x)
    (hstep : ∀ i y, P i y → ∃ z, P (i + 1) z ∧ R y z) :
    ∃ τ : Nat → α, τ 0 = x ∧ (∀ i, P i (τ i)) ∧ ∀ i, R (τ i) (τ (i + 1)) := by
  have hnext : ∀ i (y : { y // P i y }), ∃ z : { z // P (i + 1) z }, R y z := fun i y =>
    let ⟨z, hz, hyz⟩ := hstep i y y.2
    ⟨⟨z, hz⟩, hyz⟩
  choose next hrel using hnext
  exact ⟨fun i => follow ⟨x, hx⟩ next i, rfl, fun i => (follow ⟨x, hx⟩ next i).2, fun i => hrel i _⟩

/-- Settles O54: a step of the spec is laid down in front of whatever follows it, so a finite sequence is laid down at once
and an endless one as it goes. -/
theorem everySpecStepIsTaken : Obligations.EverySpecStepIsTaken := by
  refine ⟨fun c e e' h => ?_, fun c n σ hσ => ?_, fun c σ hσ => ?_⟩
  · obtain ⟨f, hagrees, v, v', hstep⟩ := exists_step_of_specStep h (.refl e)
    exact ⟨v, v', f, hstep, hagrees⟩
  · obtain ⟨v, hrun⟩ := exists_run_of_specSteps n hσ
    obtain ⟨f, v', hnext, hagrees⟩ := hrun (σ 0) v.act (.refl _)
    exact ⟨v, v', f, hnext, hagrees⟩
  · exact exists_sequence_of_forall_step (fun i g => g.Agrees (σ i))
      (fun g g' => ∃ v v' : Env c, step ⟨c, g, v⟩ = .next ⟨c, g', v'⟩) (.refl (σ 0))
      fun i _ hg => exists_step_of_specStep (hσ i) hg

end Sys2Proof.Machine
end

section
/-! SUPPORT. A command executed at a port that does not take it (R149, R60), the engine after reset (R139, R140), and the two
litmus vectors (R147, R86). -/

namespace Sys2Proof.Machine

variable {c : Config}

/-! ### A foreign command -/

theorem incStep_of_foreign {e : Engine c} {p : Fin c.p} {k : SlotIx}
    (h : (e.port p).ph = .ratioLoad ∨
      (((e.port p).ph = .incLoad ∨ (e.port p).ph = .incCas) ∧ (e.port p).opa ≠ k)) : incStep e p k = e := by
  obtain hph | ⟨hph | hph, hopa⟩ := h
  · simp [incStep, hph]
  · simp [incStep, hph, hopa]
  · simp [incStep, hph, hopa]

theorem ratioStep_of_foreign {e : Engine c} {p : Fin c.p} {a b : SlotIx}
    (h : ((e.port p).ph = .incLoad ∨ (e.port p).ph = .incCas) ∨
      ((e.port p).ph = .ratioLoad ∧ ((e.port p).opa ≠ a ∨ (e.port p).opb ≠ b))) : ratioStep e p a b = e := by
  obtain (hph | hph) | ⟨hph, hop⟩ := h
  · simp [ratioStep, hph]
  · simp [ratioStep, hph]
  · simp [ratioStep, hph, not_and_or.mpr hop]

/-! ### An ill-formed command -/

/-- At an idle port either command with an index not below `N` raises the exception for its word (R60 (c), (d)). -/
theorem exec_of_not_wf {e : Engine c} {v : Env c} {i : Instr} (hidle : (e.port v.act).ph = .idle)
    (hwf : ¬ i.wf c = true) : exec i ⟨c, e, v⟩ = .next ⟨c, raiseIllegal e v.act (encode i), v⟩ := by
  cases i with
  | inc k =>
    rw [Instr.wf_inc_iff] at hwf
    simp [exec_inc, incStep, hidle, hwf]
  | ratio a b =>
    rw [Instr.wf_ratio_iff] at hwf
    simp only [exec_ratio, ratioStep, hidle, if_neg hwf]

/-- Settles O42: the command is not the one the port holds, or a slot it names does not exist. -/
theorem foreignOrIllFormedCommandHasNoEffect : Obligations.ForeignOrIllFormedCommandHasNoEffect := by
  refine ⟨fun c e v k h => ?_, fun c e v a b h => ?_, fun c e v i hidle hwf => ?_⟩
  · rw [exec_inc, incStep_of_foreign h]
  · rw [exec_ratio, ratioStep_of_foreign h]
  · rw [exec_of_not_wf hidle (Bool.eq_false_iff.mp hwf), raiseIllegal_eq]

/-! ### Reset and the litmus vectors -/

/-- Settles O43: the engine after reset has a zero register, of which every slot is zero. -/
theorem resetClearsTheEngine : Obligations.ResetClearsTheEngine := by
  intro c e v v' hturn
  exact ⟨Engine.atReset c, step_reset hturn, rfl, WF_zero c, rfl, fun p => by simp, value_zero c,
    fun a _ => ratioData_of_value_eq_zero (.inl (value_zero c a))⟩

/-- Settles O60: vector V28 in both orders, then the ratio of V27 before the decay, the decay, and the ratio after it. -/
theorem orderAndDecayMatter : Obligations.OrderAndDecayMatter :=
  ⟨⟨by decide, by decide⟩, by decide, by decide, by decide⟩

end Sys2Proof.Machine
end

section
/-! SUPPORT. Under weak fairness every `RATIO` ends (R153, R118): a busy port keeps what it holds until its own turn, which
comes, and two turns answer and deliver. -/

namespace Sys2Proof.Machine

variable {c : Config}

/-- Until its own turn a busy port keeps what it holds, unless a reset drops its command. -/
theorem step_port_eq_or_commandEnds {e e' : Engine c} {v v' : Env c} (h : step ⟨c, e, v⟩ = .next ⟨c, e', v'⟩)
    {p : Fin c.p} (hbusy : (e.port p).ph ≠ .idle) (hturn : (drawTurn e v).1 ≠ some (.port p)) :
    e'.port p = e.port p ∨ CommandEnds c e v p := by
  obtain ⟨-, hrun⟩ | ⟨q, hq, hrun⟩ | ⟨q, hq, -⟩ | ⟨-, hrun⟩ := step_cases e v
  · cases hrun.symm.trans h
    exact .inl rfl
  · by_cases hpq : p = q
    · subst hpq
      rw [presentWord_of_busy _ hbusy] at hrun
      cases hrun.symm.trans h
      exact .inl rfl
    · exact .inl (step_othersKept (.inr hq) h p hpq).1
  · have hpq : p ≠ q := fun hpq => hturn (hpq ▸ hq)
    exact .inl (step_othersKept (.inl hq) h p hpq).1
  · cases hrun.symm.trans h
    exact .inr ⟨1, _, _, run_one h, by simp, .inl rfl⟩

/-- The run from this state comes to a turn of port `p`, which by then holds what it holds now. -/
def ComesToTurn (e : Engine c) (v : Env c) (p : Fin c.p) : Prop :=
  ∃ (n : Nat) (e' : Engine c) (v' : Env c), run n ⟨c, e, v⟩ = .next ⟨c, e', v'⟩ ∧ e'.port p = e.port p ∧
    (drawTurn e' v').1 = some (.port p)

theorem comesToTurn_or_commandEnds_of_run (m : Nat) {e e' : Engine c} {v v' : Env c} {p : Fin c.p}
    (h : run m ⟨c, e, v⟩ = .next ⟨c, e', v'⟩) (hbusy : (e.port p).ph ≠ .idle)
    (hend : (e'.port p).ph = .idle ∨ (drawTurn e' v').1 = some (.port p)) :
    ComesToTurn e v p ∨ CommandEnds c e v p := by
  induction m generalizing e v with
  | zero =>
    cases h
    exact .inl ⟨0, _, _, rfl, rfl, hend.resolve_left hbusy⟩
  | succ m ih =>
    by_cases hturn : (drawTurn e v).1 = some (.port p)
    · exact .inl ⟨0, e, v, rfl, rfl, hturn⟩
    · obtain ⟨e₁, v₁, hstep⟩ := exists_step e v
      rw [run_succ_of_next hstep] at h
      obtain hkept | hends := step_port_eq_or_commandEnds hstep hbusy hturn
      · obtain ⟨n, e₂, v₂, hrun, hport, hdrawn⟩ | hends := ih h (hkept ▸ hbusy)
        · exact .inl ⟨n + 1, e₂, v₂, (run_succ_of_next hstep).trans hrun, hport.trans hkept, hdrawn⟩
        · exact .inr (.of_run (run_one hstep) hends)
      · exact .inr hends

theorem WeaklyFair.comesToTurn_or_commandEnds {e : Engine c} {v : Env c} (hfair : WeaklyFair c e v) {p : Fin c.p}
    (hbusy : (e.port p).ph ≠ .idle) : ComesToTurn e v p ∨ CommandEnds c e v p := by
  obtain ⟨m, e', v', hrun, hend⟩ := hfair 0 e v p rfl hbusy
  exact comesToTurn_or_commandEnds_of_run m hrun hbusy hend

/-- The turn of a port in phase `DONE` delivers the response. -/
theorem commandEnds_of_done {e : Engine c} {v : Env c} (hfair : WeaklyFair c e v) {p : Fin c.p}
    (hdone : (e.port p).ph = .done) : CommandEnds c e v p := by
  obtain ⟨n, e₁, v₁, hrun, hport, hdrawn⟩ | hends := hfair.comesToTurn_or_commandEnds (p := p) (by simp [hdone])
  · have hstep := (step_port (Prod.ext hdrawn rfl)).trans (portTurn_of_done _ (hport ▸ hdone))
    refine .of_run hrun ⟨1, _, _, run_one hstep, ?_, .inr ⟨_, _, List.getLast?_concat ..⟩⟩
    rw [complete_eq, Engine.port_update_self]
  · exact hends

/-- The turn of a port in phase `RATIO_LOAD` leaves it in phase `DONE`. -/
theorem commandEnds_of_ratioLoad {e : Engine c} {v : Env c} (hfair : WeaklyFair c e v) {p : Fin c.p}
    (hload : (e.port p).ph = .ratioLoad) : CommandEnds c e v p := by
  obtain ⟨n, e₁, v₁, hrun, hport, hdrawn⟩ | hends := hfair.comesToTurn_or_commandEnds (p := p) (by simp [hload])
  · have hstep := (step_port (Prod.ext hdrawn rfl)).trans (portTurn_of_ratioLoad _ (hport ▸ hload))
    have hdone : ((ratioLoad e₁ p).port p).ph = .done := by rw [ratioLoad_eq, Engine.port_update_self]
    exact .of_run hrun (.of_run (run_one hstep) (commandEnds_of_done ((hfair.of_run hrun).of_run (run_one hstep)) hdone))
  · exact hends

end Sys2Proof.Machine
end

section
/-! SUPPORT. Endless increments can starve an `INC` (R153, R102, C3). Port `p` holds an `INC`, the requester of port `q` has
`INC k` to present over and over, and the turns go round so that a whole `INC k` of `q` falls between each load of `p` and the
swap after it. Each round changes the register (R84), so each swap of `p` fails. -/

namespace Sys2Proof.Machine

variable {c : Config}

/-! ### A word presented over and over -/

/-- The requester of port `q` has the word `w` to present over and over, and no other word before it. -/
structure Env.Repeats (v : Env c) (q : Fin c.p) (w : CmdWord) : Prop where
  inbox  : v.inbox[q] = []
  supply : v.supply[q] = .again w []

theorem Env.Repeats.offered {v : Env c} {q : Fin c.p} {w : CmdWord} (h : v.Repeats q w) : v.offered q = some w := by
  simp only [Env.offered, h.inbox, h.supply]

theorem Env.Repeats.taken {v : Env c} {q : Fin c.p} {w : CmdWord} (h : v.Repeats q w) : (v.taken q).Repeats q w := by
  refine ⟨?_, by rw [Env.taken_supply, h.supply]⟩
  simp [Env.taken, h.inbox, h.supply]

/-! ### The round of turns -/

/-- Port `p` loads; port `q` accepts, loads, swaps and completes; port `p` swaps. -/
def starvingRound (p q : Fin c.p) : List (Turn c) := [.port p, .requester q, .port q, .port q, .port q, .port p]

/-- How many swaps a history holds of either kind. -/
def SwapCounts (h : List (Event c)) (failed succeeded : Nat) : Prop :=
  failureCount h = failed ∧ successCount h = succeeded

theorem SwapCounts.append {h evs : List (Event c)} {f s f' s' : Nat} (hc : SwapCounts h f s) (he : SwapCounts evs f' s') :
    SwapCounts (h ++ evs) (f + f') (s + s') := by
  obtain ⟨rfl, rfl⟩ := hc
  obtain ⟨rfl, rfl⟩ := he
  exact ⟨failureCount_append _ _, successCount_append _ _⟩

/-- What port `p` holds (`x`), what port `q` holds (`y`), the register `r` and the history `h` when these turns of the round
are left, after `f` rounds with one failed and one successful swap each. -/
inductive RoundStage (p q : Fin c.p) (k : SlotIx) (f : Nat) (x y : Port c) (r : BitVec c.w) (h : List (Event c)) :
    List (Turn c) → Prop where
  | load (hx : x.ph = .incLoad) (hy : y.ph = .idle) (counts : SwapCounts h f f) :
      RoundStage p q k f x y r h [.port p, .requester q, .port q, .port q, .port q, .port p]
  | otherAccept (hx : x.ph = .incCas) (hcur : x.cur = r) (hy : y.ph = .idle) (counts : SwapCounts h f f) :
      RoundStage p q k f x y r h [.requester q, .port q, .port q, .port q, .port p]
  | otherLoad (hx : x.ph = .incCas) (hcur : x.cur = r) (hy : y.ph = .incLoad) (hopa : y.opa = k)
      (counts : SwapCounts h f f) :
      RoundStage p q k f x y r h [.port q, .port q, .port q, .port p]
  | otherSwap (hx : x.ph = .incCas) (hcur : x.cur = r) (hy : y.ph = .incCas) (hopa : y.opa = k) (hycur : y.cur = r)
      (counts : SwapCounts h f f) :
      RoundStage p q k f x y r h [.port q, .port q, .port p]
  | otherComplete (hx : x.ph = .incCas) (hstale : r ≠ x.cur) (hy : y.ph = .done) (counts : SwapCounts h f (f + 1)) :
      RoundStage p q k f x y r h [.port q, .port p]
  | fail (hx : x.ph = .incCas) (hstale : r ≠ x.cur) (hy : y.ph = .idle) (counts : SwapCounts h f (f + 1)) :
      RoundStage p q k f x y r h [.port p]

/-- The round in the engine `e`. -/
def Engine.InRound (e : Engine c) (p q : Fin c.p) (k : SlotIx) (f : Nat) (turns : List (Turn c)) : Prop :=
  RoundStage p q k f (e.port p) (e.port q) e.reg e.hist turns

theorem RoundStage.phase {p q : Fin c.p} {k : SlotIx} {f : Nat} {x y : Port c} {r : BitVec c.w} {h : List (Event c)}
    {turns : List (Turn c)} (hs : RoundStage p q k f x y r h turns) : x.ph = .incLoad ∨ x.ph = .incCas := by
  cases hs with
  | load hx => exact .inl hx
  | otherAccept hx | otherLoad hx | otherSwap hx | otherComplete hx | fail hx => exact .inr hx

section Round

variable {e : Engine c} {p q : Fin c.p} {k : SlotIx} {f : Nat} {turns : List (Turn c)}

theorem Engine.inRound_update_left (hne : p ≠ q) {r : BitVec c.w} {x : Port c} {evs : List (Event c)} :
    Engine.InRound ⟨r, e.ports.set p.val x p.isLt, evs⟩ p q k f turns ↔
      RoundStage p q k f x (e.port q) r evs turns := by
  rw [Engine.InRound, Engine.port_update_self, Engine.port_update_of_ne _ _ hne.symm]

theorem Engine.inRound_update_right (hne : p ≠ q) {r : BitVec c.w} {y : Port c} {evs : List (Event c)} :
    Engine.InRound ⟨r, e.ports.set q.val y q.isLt, evs⟩ p q k f turns ↔
      RoundStage p q k f (e.port p) y r evs turns := by
  rw [Engine.InRound, Engine.port_update_self, Engine.port_update_of_ne _ _ hne]

/-- Each turn of the round leads to what the turns after it need; after the last one the round begins again with one more
failed swap. -/
theorem Engine.InRound.exists_runTurn {t : Turn c} {ts : List (Turn c)} (h : e.InRound p q k f (t :: ts)) (hne : p ≠ q)
    (hk : k.toNat < c.n) (hchange : nextValue c e.reg k.toNat ≠ e.reg) {v : Env c}
    (hv : v.Repeats q (encode (.inc k))) :
    ∃ (e' : Engine c) (v' : Env c), runTurn e v (some t) = .next ⟨c, e', v'⟩ ∧ v'.Repeats q (encode (.inc k)) ∧
      (e'.InRound p q k f ts ∨ (ts = [] ∧ e'.InRound p q k (f + 1) (starvingRound p q))) := by
  cases h with
  | load hx hy counts =>
    refine ⟨_, _, portTurn_of_incLoad v hx, ⟨hv.inbox, hv.supply⟩, .inl ?_⟩
    rw [incLoad_eq, Engine.inRound_update_left hne]
    exact .otherAccept rfl rfl hy (counts.append ⟨rfl, rfl⟩)
  | otherAccept hx hcur hy counts =>
    have hd := decode_encode (Instr.wf_inc_iff.mpr hk)
    refine ⟨_, _, presentWord_of_inc v hy hv.offered hd, ⟨hv.taken.inbox, hv.taken.supply⟩, .inl ?_⟩
    rw [incAccept_eq, Engine.inRound_update_right hne]
    exact .otherLoad hx hcur rfl rfl (counts.append ⟨rfl, rfl⟩)
  | otherLoad hx hcur hy hopa counts =>
    refine ⟨_, _, portTurn_of_incLoad v hy, ⟨hv.inbox, hv.supply⟩, .inl ?_⟩
    rw [incLoad_eq, Engine.inRound_update_right hne]
    exact .otherSwap hx hcur rfl hopa rfl (counts.append ⟨rfl, rfl⟩)
  | otherSwap hx hcur hy hopa hycur counts =>
    refine ⟨_, _, portTurn_of_incCas v hy, ⟨hv.inbox, hv.supply⟩, .inl ?_⟩
    rw [incCas_of_current e q hycur.symm, hopa, hycur, Engine.inRound_update_right hne]
    exact .otherComplete hx (hcur ▸ hchange) rfl (counts.append ⟨rfl, rfl⟩)
  | otherComplete hx hstale hy counts =>
    refine ⟨_, _, portTurn_of_done v hy, ⟨hv.inbox, hv.supply⟩, .inl ?_⟩
    rw [complete_eq, Engine.inRound_update_right hne]
    exact .fail hx hstale rfl (counts.append ⟨rfl, rfl⟩)
  | fail hx hstale hy counts =>
    refine ⟨_, _, portTurn_of_incCas v hx, ⟨hv.inbox, hv.supply⟩, .inr ⟨rfl, ?_⟩⟩
    rw [incCas_of_stale e p hstale, Engine.inRound_update_left hne]
    exact .load rfl hy (counts.append ⟨rfl, rfl⟩)

end Round

/-! ### The run -/

/-- A state in the middle of the starving run: the turns `turns` of the round are left, every port but `p` and `q` is idle,
and the state is one the machine reaches. -/
structure Starving (p q : Fin c.p) (k : SlotIx) (f : Nat) (turns : List (Turn c)) (e : Engine c) (v : Env c) : Prop where
  stage     : e.InRound p q k f turns
  laid      : v.sched = turns ∨ (v.sched = [] ∧ v.round = turns)
  round     : v.round = starvingRound p q
  repeated  : v.Repeats q (encode (.inc k))
  others    : ∀ r, r ≠ p → r ≠ q → (e.port r).ph = .idle
  reachable : Reachable ⟨c, e, v⟩

section Run

variable {p q : Fin c.p} {k : SlotIx} {f : Nat} {turns : List (Turn c)} {e : Engine c} {v : Env c}

theorem Engine.InRound.ne_nil (h : e.InRound p q k f turns) : turns ≠ [] := by
  cases h <;> exact List.cons_ne_nil _ _

/-- Only `p`, `q` and the requester of `q` take turns. -/
theorem Engine.InRound.turn_owner {t : Turn c} {ts : List (Turn c)} (h : e.InRound p q k f (t :: ts)) :
    ∃ r, (r = p ∨ r = q) ∧ (t = .port r ∨ t = .requester r) := by
  cases h with
  | load | fail => exact ⟨p, .inl rfl, .inl rfl⟩
  | otherAccept => exact ⟨q, .inr rfl, .inr rfl⟩
  | otherLoad | otherSwap | otherComplete => exact ⟨q, .inr rfl, .inl rfl⟩

theorem Starving.phase (h : Starving p q k f turns e v) : (e.port p).ph = .incLoad ∨ (e.port p).ph = .incCas :=
  RoundStage.phase h.stage

/-- After a round of turns the counts are equal. -/
theorem Starving.counts (h : Starving p q k f (starvingRound p q) e v) : SwapCounts e.hist f f := by
  cases h.stage with
  | load _ _ counts => exact counts

theorem Starving.no_reset (h : Starving p q k f turns e v) : .reset ∉ e.hist.tail := by
  obtain ⟨-, -, hreset, -⟩ := reachableStatesAreSoundAndExplained _ h.reachable
  exact hreset

/-- At the beginning of a round only `p` is busy, and the turn is its own. -/
theorem Starving.idle_or_drawn (h : Starving p q k f (starvingRound p q) e v) (r : Fin c.p) :
    (e.port r).ph = .idle ∨ (drawTurn e v).1 = some (.port r) := by
  by_cases hp : r = p
  · subst hp
    exact .inr (congrArg Prod.fst (drawTurn_of_laid_down_or_round h.laid))
  · by_cases hq : r = q
    · cases h.stage with
      | load _ hy => exact .inl (hq ▸ hy)
    · exact .inl (h.others r hp hq)

/-- The ports besides `p` and `q` stay idle. -/
theorem Starving.others_of_step {t : Turn c} {ts : List (Turn c)} (h : Starving p q k f (t :: ts) e v) {e' : Engine c}
    {v' : Env c} (hstep : step ⟨c, e, v⟩ = .next ⟨c, e', v'⟩) : ∀ r, r ≠ p → r ≠ q → (e'.port r).ph = .idle := by
  intro r hp hq
  obtain ⟨o, ho, hturn⟩ := h.stage.turn_owner
  have hro : r ≠ o := ho.elim (· ▸ hp) (· ▸ hq)
  have hdrawn : (drawTurn e v).1 = some (.port o) ∨ (drawTurn e v).1 = some (.requester o) := by
    rw [drawTurn_of_laid_down_or_round h.laid]
    exact hturn.imp (congrArg some) (congrArg some)
  rw [(step_othersKept hdrawn hstep r hro).1, h.others r hp hq]

variable (hne : p ≠ q) (hk : k.toNat < c.n) (hs : 3 ≤ c.s)

include hne hk hs

/-- Each step takes the first of the turns left: `NEXT` changes the register as `S` is at least 3 (R84). -/
theorem Starving.exists_step {t : Turn c} {ts : List (Turn c)} (h : Starving p q k f (t :: ts) e v) :
    ∃ (e' : Engine c) (v' : Env c), step ⟨c, e, v⟩ = .next ⟨c, e', v'⟩ ∧
      (Starving p q k f ts e' v' ∨ (ts = [] ∧ Starving p q k (f + 1) (starvingRound p q) e' v')) := by
  obtain ⟨⟨hwf, -⟩, -⟩ := reachableStatesAreSoundAndExplained _ h.reachable
  have hdraw := drawTurn_of_laid_down_or_round (e := e) h.laid
  have hchange : nextValue c e.reg k.toNat ≠ e.reg := (fixedPointsOfNext c e.reg k.toNat hk hwf).1 hs
  obtain ⟨e', v', hrun, hrepeated, hstage⟩ :=
    h.stage.exists_runTurn hne hk hchange (v := { v with sched := ts }) ⟨h.repeated.inbox, h.repeated.supply⟩
  have hstep : step ⟨c, e, v⟩ = .next ⟨c, e', v'⟩ := by rw [step_eq, hdraw, hrun]
  obtain ⟨hsched, -, hround⟩ := step_surroundings hstep
  rw [hdraw] at hsched
  have hround' := hround.trans h.round
  have hothers := h.others_of_step hstep
  have hreach := Reachable.next _ _ h.reachable hstep
  exact ⟨e', v', hstep, hstage.imp (fun hon => ⟨hon, .inl hsched, hround', hrepeated, hothers, hreach⟩)
    fun ⟨hnil, hon⟩ => ⟨hnil, hon, .inr ⟨hsched.trans hnil, hround'⟩, hround', hrepeated, hothers, hreach⟩⟩

/-- The starving run goes on without end. -/
theorem Starving.exists_run (n : Nat) (h : Starving p q k f turns e v) :
    ∃ (f' : Nat) (turns' : List (Turn c)) (e' : Engine c) (v' : Env c),
      run n ⟨c, e, v⟩ = .next ⟨c, e', v'⟩ ∧ Starving p q k f' turns' e' v' := by
  induction n generalizing f turns e v with
  | zero => exact ⟨f, turns, e, v, rfl, h⟩
  | succ n ih =>
    obtain ⟨t, ts, rfl⟩ := List.exists_cons_of_ne_nil h.stage.ne_nil
    obtain ⟨e₁, v₁, hstep, hon | ⟨-, hon⟩⟩ := h.exists_step hne hk hs <;> rw [run_succ_of_next hstep]
    · exact ih hon
    · exact ih hon

/-- The round is taken to its end. -/
theorem Starving.exists_run_round (h : Starving p q k f turns e v) :
    ∃ (n : Nat) (e' : Engine c) (v' : Env c), run n ⟨c, e, v⟩ = .next ⟨c, e', v'⟩ ∧
      Starving p q k (f + 1) (starvingRound p q) e' v' := by
  induction turns generalizing e v with
  | nil => exact absurd rfl h.stage.ne_nil
  | cons t ts ih =>
    obtain ⟨e₁, v₁, hstep, hon | ⟨-, hon⟩⟩ := h.exists_step hne hk hs
    · obtain ⟨n, e', v', hrun, hend⟩ := ih hon
      exact ⟨n + 1, e', v', (run_succ_of_next hstep).trans hrun, hend⟩
    · exact ⟨1, e₁, v₁, run_one hstep, hon⟩

/-- As many rounds as one likes. -/
theorem Starving.exists_run_rounds (h : Starving p q k 0 (starvingRound p q) e v) (g : Nat) :
    ∃ (n : Nat) (e' : Engine c) (v' : Env c), run n ⟨c, e, v⟩ = .next ⟨c, e', v'⟩ ∧
      Starving p q k g (starvingRound p q) e' v' := by
  induction g with
  | zero => exact ⟨0, e, v, rfl, h⟩
  | succ g ih =>
    obtain ⟨m, e₁, v₁, hrun₁, hmid⟩ := ih
    obtain ⟨n, e', v', hrun, hend⟩ := hmid.exists_run_round hne hk hs
    exact ⟨n + m, e', v', (run_add_of_next hrun₁).trans hrun, hend⟩

end Run

/-! ### From reset -/

/-- The surroundings right after reset that starve `INC j` of port `p`. -/
def starvingEnv (p q : Fin c.p) (j k : SlotIx) : Env c :=
  { Env.quiet c with
    inbox := (Vector.replicate c.p []).set p.val [encode (.inc j)] p.isLt
    supply := (Vector.replicate c.p .nothing).set q.val (.again (encode (.inc k)) []) q.isLt
    sched := [.requester p]
    round := starvingRound p q }

section Start

variable {p q : Fin c.p} {j k : SlotIx} (hne : p ≠ q) (hj : j.toNat < c.n) (hk : k.toNat < c.n) (hs : 3 ≤ c.s)

theorem starvingEnv_offered : (starvingEnv p q j k).offered p = some (encode (.inc j)) :=
  Env.offered_of_inbox (ws := []) (by simp [starvingEnv])

include hne

theorem starvingEnv_repeats : (starvingEnv p q j k).Repeats q (encode (.inc k)) where
  inbox := by
    have hval : p.val ≠ q.val := Fin.val_ne_of_ne hne
    simp [starvingEnv, hval]
  supply := by simp [starvingEnv]

include hj

/-- The first step accepts `INC j`, and the round of turns begins. -/
theorem step_starvingEnv : ∃ v' : Env c, step ⟨c, Engine.atReset c, starvingEnv p q j k⟩ =
    .next ⟨c, incAccept (Engine.atReset c) p j, v'⟩ ∧
      Starving p q k 0 (starvingRound p q) (incAccept (Engine.atReset c) p j) v' := by
  have hdraw := drawTurn_of_laid_down (Engine.atReset c) (starvingEnv p q j k) rfl
  have hstep := (step_requester hdraw).trans (presentWord_of_inc _ (by simp)
    ((Env.offered_with_sched _ _ p).trans starvingEnv_offered) (decode_encode (Instr.wf_inc_iff.mpr hj)))
  obtain ⟨hsched, hsupply, hround⟩ := step_surroundings hstep
  have hothers := step_othersKept (.inr (congrArg Prod.fst hdraw)) hstep
  have hrepeats := starvingEnv_repeats (j := j) (k := k) hne
  refine ⟨_, hstep, ?_, .inr ⟨hsched, hround⟩, hround, ⟨?_, ?_⟩, fun r hp _ => ?_, .next _ _ (.start c _) hstep⟩
  · rw [incAccept_eq, Engine.inRound_update_left hne]
    exact .load rfl (by simp) ⟨rfl, rfl⟩
  · rw [(hothers q hne.symm).2, drawTurn_inbox, hrepeats.inbox]
  · rw [hsupply, hrepeats.supply]
  · rw [(hothers r hp).1, Engine.atReset_port, Port.atReset_ph]

include hk hs

/-- When a round ends, each port has become idle or its turn is next. -/
theorem weaklyFair_starvingEnv : WeaklyFair c (Engine.atReset c) (starvingEnv p q j k) := by
  obtain ⟨v', hstep, hstart⟩ := step_starvingEnv (k := k) hne hj
  intro n e₁ v₁ r hrun hbusy
  cases n with
  | zero =>
    cases hrun
    exact absurd (by simp) hbusy
  | succ n =>
    rw [run_succ_of_next hstep] at hrun
    obtain ⟨f, turns, e₂, v₂, hrun₂, hmid⟩ := hstart.exists_run hne hk hs n
    cases hrun.symm.trans hrun₂
    obtain ⟨m, e₃, v₃, hrun₃, hend⟩ := hmid.exists_run_round hne hk hs
    exact ⟨m, e₃, v₃, hrun₃, hend.idle_or_drawn r⟩

end Start

/-- Settles O59: a `RATIO` takes two turns, none of which can fail, but every swap of `p` in the starving run does. -/
theorem endlessIncrementsCanStarveAnIncButNoRatio : Obligations.EndlessIncrementsCanStarveAnIncButNoRatio := by
  refine ⟨fun c e v p hfair hload => commandEnds_of_ratioLoad hfair hload, fun c p q j k hs hne hj hk => ?_⟩
  obtain ⟨v', hstep, hstart⟩ := step_starvingEnv (k := k) hne hj
  refine ⟨starvingEnv p q j k, weaklyFair_starvingEnv hne hj hk hs, ⟨_, _, run_one hstep, rfl⟩, fun n => ?_, fun f => ?_⟩
  · obtain ⟨f, turns, e', v'', hrun, hmid⟩ := hstart.exists_run hne hk hs n
    exact ⟨e', v'', (run_succ_of_next hstep).trans hrun, hmid.phase, hmid.no_reset⟩
  · obtain ⟨n, e', v'', hrun, hend⟩ := hstart.exists_run_rounds hne hk hs f
    exact ⟨n + 1, e', v'', (run_succ_of_next hstep).trans hrun, hend.counts⟩

end Sys2Proof.Machine
end
